-- ==== Sys2Proof/Word.lean ====
section
/-! DEFINITION. The word types of the machine (00_scope.md R7). All values are unsigned bit vectors (R6). -/

namespace Sys2Proof

/-- A memory byte, a general register, a timer, the immediate `NN` (R20, R21, R73). -/
abbrev Byte := BitVec 8

/-- An instruction word, `pc`, `I`, a stack entry, `FINFO` (R7, R23, R25, R26, R33). -/
abbrev Word := BitVec 16

/-- The 12-bit immediate `NNN` (R73). -/
abbrev Imm12 := BitVec 12

/-- A 4-bit slice of an instruction word: a register index `X` or `Y`, the count `N` (R7, R73). -/
abbrev Nibble := BitVec 4

end Sys2Proof
end

