-- ==== Sys2Proof/Config.lean ====
section
/-! DEFINITION. The implementation parameters of 00_scope.md R5: the fixed ones as constants, the OPEN ones as the
fields of `Config`, and the one free value of the machine, the random byte (R128, R164). -/

namespace Sys2Proof

/-- `MEM_SIZE` (R5). -/
def memSize : Nat := 4096

/-- The highest memory address, `0xFFF` (R50). -/
def topAddress : Nat := 0xFFF

/-- `PROG_BASE`, the program offset and the reset value of `pc` (R5, R25). -/
def progBase : Nat := 0x200

/-- `MAX_ROM = MEM_SIZE - PROG_BASE` (R5). -/
def maxRom : Nat := memSize - progBase

/-- `STACK_DEPTH` (R5). -/
def stackDepth : Nat := 16

/-- `FB_W` (R5). -/
def fbWidth : Nat := 64

/-- `FB_H` (R5). -/
def fbHeight : Nat := 32

/-- `NKEYS` (R5). -/
def keyCount : Nat := 16

/-- `FONT_BYTES` (R5). -/
def fontBytes : Nat := 80

/-- `GLYPH_BYTES` (R5). -/
def glyphBytes : Nat := 5

/-- `HIST_DEPTH` (R5, R38). -/
def historyDepth : Nat := 50

/-- `FLAG_REG`: the index of the flag register `VF` (R5, R22; decision D11, log 16). -/
def flagReg : Nibble := 0xF

/-- The values of the parameter `P_BNNN` (R5, R107). -/
inductive PBnnn where
  /-- `BNNN` is `JP V0, NNN`. -/
  | jpV0
  /-- `BNNN` has no handler: it is a `NOP`. -/
  | nop
deriving DecidableEq, Repr

/-- The OPEN parameters of R5, fixed for the life of the machine (R39). DESIGN CHOICE (log 1), safe: `State` carries
them, so that a statement about every state holds for every value of them. -/
structure Config where
  /-- `FONT_BASE`, under its constraint `FONT_BASE + 80 <= PROG_BASE`, that is at most 432 (R5, R24). -/
  fontBase : Fin 433
  /-- `FONT[0..79]` (R5, R24). -/
  font : Vector Byte 80
  /-- `P_BNNN` (R5, R107). -/
  pBnnn : PBnnn
deriving DecidableEq, Repr

/-- The random byte of draw number `n` where the host has lined up none: a FREE VALUE (R36, R128, R164; log 5), under
no law: not uniform, not independent, not constant. -/
opaque Config.randomByte : Nat → Byte

end Sys2Proof
end

