-- ==== Sys2Proof/Syntax.lean ====
section
/-! DEFINITION. The instruction set as syntax: one constructor for each row of spec/opcode_table.json, in the table's
order. Where the decoder ignores a nibble (30_encoding.md R71), the constructor keeps it (`mid`, `low`, or the unused
`y` of the shifts), so that every word has its own term; no meaning reads it (DESIGN CHOICE, safe; log 10). -/

namespace Sys2Proof

/-- The 35 instructions (R75 to R82). -/
inductive Instr where
  /-- `CLS`, words `0mm0` (R77, R130). -/
  | cls (mid : Byte)
  /-- `RET`, words `0mmE` (R77, R102). -/
  | ret (mid : Byte)
  /-- `JP NNN`, `1NNN` (R100). -/
  | jp (nnn : Imm12)
  /-- `CALL NNN`, `2NNN` (R101). -/
  | call (nnn : Imm12)
  /-- `SE Vx, NN`, `3XNN` (R103). -/
  | seImm (x : Nibble) (nn : Byte)
  /-- `SNE Vx, NN`, `4XNN` (R104). -/
  | sneImm (x : Nibble) (nn : Byte)
  /-- `SE Vx, Vy`, `5XY_` (R105). -/
  | seReg (x y low : Nibble)
  /-- `LD Vx, NN`, `6XNN` (R110). -/
  | ldImm (x : Nibble) (nn : Byte)
  /-- `ADD Vx, NN`, `7XNN` (R111). -/
  | addImm (x : Nibble) (nn : Byte)
  /-- `LD Vx, Vy`, `8XY0` (R112). -/
  | ldReg (x y : Nibble)
  /-- `OR Vx, Vy`, `8XY1` (R113). -/
  | orReg (x y : Nibble)
  /-- `AND Vx, Vy`, `8XY2` (R114). -/
  | andReg (x y : Nibble)
  /-- `XOR Vx, Vy`, `8XY3` (R115). -/
  | xorReg (x y : Nibble)
  /-- `ADD Vx, Vy`, `8XY4` (R116). -/
  | addReg (x y : Nibble)
  /-- `SUB Vx, Vy`, `8XY5` (R117). -/
  | sub (x y : Nibble)
  /-- `SHR Vx`, `8XY6`, `y` unused (R119). -/
  | shr (x y : Nibble)
  /-- `SUBN Vx, Vy`, `8XY7` (R118). -/
  | subn (x y : Nibble)
  /-- `SHL Vx`, `8XYE`, `y` unused (R120). -/
  | shl (x y : Nibble)
  /-- `SNE Vx, Vy`, `9XY_` (R106). -/
  | sneReg (x y low : Nibble)
  /-- `LD I, NNN`, `ANNN` (R125). -/
  | ldI (nnn : Imm12)
  /-- `JP V0, NNN`, `BNNN`, under `P_BNNN = jp_v0` (R107). -/
  | jpV0 (nnn : Imm12)
  /-- `RND Vx, NN`, `CXNN` (R128). -/
  | rnd (x : Nibble) (nn : Byte)
  /-- `DRW Vx, Vy, N`, `DXYN` (R131). -/
  | drw (x y n : Nibble)
  /-- `SKP Vx`, `EX_E` (R135). -/
  | skp (x mid : Nibble)
  /-- `SKNP Vx`, `EX_1` (R136). -/
  | sknp (x mid : Nibble)
  /-- `LD Vx, DT`, `FX07` (R138). -/
  | ldVxDt (x : Nibble)
  /-- `LD Vx, K`, `FX0A` (R137). -/
  | ldVxK (x : Nibble)
  /-- `LD DT, Vx`, `FX15` (R139). -/
  | ldDtVx (x : Nibble)
  /-- `LD ST, Vx`, `FX18` (R140). -/
  | ldStVx (x : Nibble)
  /-- `ADD I, Vx`, `FX1E` (R126). -/
  | addI (x : Nibble)
  /-- `LD F, Vx`, `FX29` (R127). -/
  | ldF (x : Nibble)
  /-- `LD B, Vx`, `FX33` (R143). -/
  | ldB (x : Nibble)
  /-- `LD [I], Vx`, `FX55` (R144). -/
  | storeRegs (x : Nibble)
  /-- `LD Vx, [I]`, `FX65` (R145). -/
  | loadRegs (x : Nibble)
  /-- `NOP`: any word of the no-op space of R81, which it carries (R95). -/
  | nop (op : Word)
deriving DecidableEq, Repr

end Sys2Proof
end

