-- ==== Sys2Proof/WellFormed.lean ====
section
/-! DEFINITION. Which terms of `Instr` stand for a word of the machine. Every operand fits its field by its type; two
checks are left: a `NOP` carries a word of the no-op space, and `JP V0, NNN` exists only under `P_BNNN = jp_v0`. -/

namespace Sys2Proof

/-- The no-op space, row by row as the table of 30_encoding.md R81 lists it. -/
def isNopWord (p : PBnnn) (op : Word) : Bool :=
  let top := op.extractLsb' 12 4
  let low := op.extractLsb' 0 4
  let lowByte := op.extractLsb' 0 8
  (top == 0x0#4 && !([0x0#4, 0xE#4].contains low))
    || (top == 0x8#4 && [0x8#4, 0x9#4, 0xA#4, 0xB#4, 0xC#4, 0xD#4, 0xF#4].contains low)
    || (top == 0xE#4 && !([0x1#4, 0xE#4].contains low))
    || (top == 0xF#4 &&
        !([0x07#8, 0x0A#8, 0x15#8, 0x18#8, 0x1E#8, 0x29#8, 0x33#8, 0x55#8, 0x65#8].contains lowByte))
    || (top == 0xB#4 && p == .nop)

/-- The instruction stands for a word under the parameter `P_BNNN = p` (R75, R81). -/
def Instr.wf (p : PBnnn) : Instr → Bool
  | .nop op => isNopWord p op
  | .jpV0 _ => p == .jpV0
  | .cls _ | .ret _ | .jp _ | .call _ | .seImm _ _ | .sneImm _ _ | .seReg _ _ _ | .ldImm _ _ | .addImm _ _
  | .ldReg _ _ | .orReg _ _ | .andReg _ _ | .xorReg _ _ | .addReg _ _ | .sub _ _ | .shr _ _ | .subn _ _
  | .shl _ _ | .sneReg _ _ _ | .ldI _ | .rnd _ _ | .drw _ _ _ | .skp _ _ | .sknp _ _ | .ldVxDt _ | .ldVxK _
  | .ldDtVx _ | .ldStVx _ | .addI _ | .ldF _ | .ldB _ | .storeRegs _ | .loadRegs _ => true

end Sys2Proof
end

