-- ==== Sys2Proof/Decode.lean ====
section
/-! DEFINITION. The decoder and the encoder (30_encoding.md R70 to R82), each written from the spec's tables, and the
opcode table of spec/opcode_table.json as data. Opcode numbers other than `00E0` are the spec's decision D35 (log 15). -/

namespace Sys2Proof

/-! ### Fields (R7, R73) -/

/-- `op[15:12]`, the primary key. -/
def topNibble (op : Word) : Nibble := op.extractLsb' 12 4

/-- `X = op[11:8]`. -/
def fieldX (op : Word) : Nibble := op.extractLsb' 8 4

/-- `Y = op[7:4]`. -/
def fieldY (op : Word) : Nibble := op.extractLsb' 4 4

/-- `N = op[3:0]`, also the secondary key of the families `0x0`, `0x8`, `0xE` (R71). -/
def fieldN (op : Word) : Nibble := op.extractLsb' 0 4

/-- `NN = op[7:0]`, also the secondary key of the family `0xF` (R71). -/
def fieldNN (op : Word) : Byte := op.extractLsb' 0 8

/-- `NNN = op[11:0]`. -/
def fieldNNN (op : Word) : Imm12 := op.extractLsb' 0 12

/-- `op[11:4]`, which the decoder ignores in the family `0x0` (R71). -/
def fieldMid (op : Word) : Byte := op.extractLsb' 4 8

/-- The instruction word of two bytes, big-endian: `mem[pc] ++ mem[pc+1]` (R54). -/
def wordOfBytes (hi lo : Byte) : Word := hi ++ lo

/-- The byte of a word at the lower address (R54). -/
def highByte (op : Word) : Byte := op.extractLsb' 8 8

/-- The byte of a word at the higher address (R54). -/
def lowByte (op : Word) : Byte := op.extractLsb' 0 8

/-! ### The decoder (R75) -/

/-- Family `0x0`, keyed by `op[3:0]` (R77). -/
def decode0 (op : Word) : Instr :=
  match fieldN op with
  | 0x0#4 => .cls (fieldMid op)
  | 0xE#4 => .ret (fieldMid op)
  | _ => .nop op

/-- Family `0x8`, keyed by `op[3:0]` (R78). -/
def decode8 (op : Word) : Instr :=
  match fieldN op with
  | 0x0#4 => .ldReg (fieldX op) (fieldY op)
  | 0x1#4 => .orReg (fieldX op) (fieldY op)
  | 0x2#4 => .andReg (fieldX op) (fieldY op)
  | 0x3#4 => .xorReg (fieldX op) (fieldY op)
  | 0x4#4 => .addReg (fieldX op) (fieldY op)
  | 0x5#4 => .sub (fieldX op) (fieldY op)
  | 0x6#4 => .shr (fieldX op) (fieldY op)
  | 0x7#4 => .subn (fieldX op) (fieldY op)
  | 0xE#4 => .shl (fieldX op) (fieldY op)
  | _ => .nop op

/-- Family `0xE`, keyed by `op[3:0]` (R79). -/
def decodeE (op : Word) : Instr :=
  match fieldN op with
  | 0xE#4 => .skp (fieldX op) (fieldY op)
  | 0x1#4 => .sknp (fieldX op) (fieldY op)
  | _ => .nop op

/-- Family `0xF`, keyed by `op[7:0]` (R80). -/
def decodeF (op : Word) : Instr :=
  match fieldNN op with
  | 0x07#8 => .ldVxDt (fieldX op)
  | 0x0A#8 => .ldVxK (fieldX op)
  | 0x15#8 => .ldDtVx (fieldX op)
  | 0x18#8 => .ldStVx (fieldX op)
  | 0x1E#8 => .addI (fieldX op)
  | 0x29#8 => .ldF (fieldX op)
  | 0x33#8 => .ldB (fieldX op)
  | 0x55#8 => .storeRegs (fieldX op)
  | 0x65#8 => .loadRegs (fieldX op)
  | _ => .nop op

/-- `decode(op)` of R75 under the parameter `P_BNNN = p`: a total function, exactly one handler for each word. The
primary table is R76; the last arm is the top nibble `0xF`, the one left. -/
def decodeWord (p : PBnnn) (op : Word) : Instr :=
  match topNibble op with
  | 0x0#4 => decode0 op
  | 0x1#4 => .jp (fieldNNN op)
  | 0x2#4 => .call (fieldNNN op)
  | 0x3#4 => .seImm (fieldX op) (fieldNN op)
  | 0x4#4 => .sneImm (fieldX op) (fieldNN op)
  | 0x5#4 => .seReg (fieldX op) (fieldY op) (fieldN op)
  | 0x6#4 => .ldImm (fieldX op) (fieldNN op)
  | 0x7#4 => .addImm (fieldX op) (fieldNN op)
  | 0x8#4 => decode8 op
  | 0x9#4 => .sneReg (fieldX op) (fieldY op) (fieldN op)
  | 0xA#4 => .ldI (fieldNNN op)
  | 0xB#4 => match p with
    | .jpV0 => .jpV0 (fieldNNN op)
    | .nop => .nop op
  | 0xC#4 => .rnd (fieldX op) (fieldNN op)
  | 0xD#4 => .drw (fieldX op) (fieldY op) (fieldN op)
  | 0xE#4 => decodeE op
  | _ => decodeF op

/-- Why a byte sequence is no instruction. -/
inductive DecodeError where
  /-- Fewer than two bytes: every instruction is exactly two (R70). No word is refused (R81). -/
  | needTwoBytes
deriving DecidableEq, Repr

/-- Decode the first instruction of a byte sequence; total on any bytes (R70, R75). -/
def decodeBytes (p : PBnnn) : List Byte → Except DecodeError (Instr × List Byte)
  | hi :: lo :: rest => .ok (decodeWord p (wordOfBytes hi lo), rest)
  | [_] => .error .needTwoBytes
  | [] => .error .needTwoBytes

/-- The first word of an instruction whose `nbits` low bits are those of `w` and whose other bits are 0. -/
def tableWord (nbits w : Nat) : Word := BitVec.ofNat 16 (w % 2 ^ nbits)

/-- What the decoder reads from the word of an opcode-table row. The row `JP_V0__NNN` applies under `P_BNNN = jp_v0`,
so the table is read under that value (log 11). -/
def decodeTableWord (nbits w : Nat) : Option Instr :=
  match decodeBytes .jpV0 [highByte (tableWord nbits w), lowByte (tableWord nbits w)] with
  | .ok (i, _) => some i
  | .error _ => none

/-! ### The encoder (R72, R76 to R80) -/

/-- Format `NNN` (R72). -/
def encodeNNN (k : Nibble) (nnn : Imm12) : Word := k ++ nnn

/-- Format `XNN` (R72). -/
def encodeXNN (k x : Nibble) (nn : Byte) : Word := k ++ x ++ nn

/-- Formats `XY` and `XYN` (R72). -/
def encodeXYN (k x y n : Nibble) : Word := k ++ x ++ y ++ n

/-- Format `Z`, the ignored middle byte written out (R72, R77). -/
def encodeZ (k : Nibble) (mid : Byte) (low : Nibble) : Word := k ++ mid ++ low

/-- The word of an instruction. -/
def encode : Instr → Word
  | .cls mid => encodeZ 0x0 mid 0x0
  | .ret mid => encodeZ 0x0 mid 0xE
  | .jp nnn => encodeNNN 0x1 nnn
  | .call nnn => encodeNNN 0x2 nnn
  | .seImm x nn => encodeXNN 0x3 x nn
  | .sneImm x nn => encodeXNN 0x4 x nn
  | .seReg x y low => encodeXYN 0x5 x y low
  | .ldImm x nn => encodeXNN 0x6 x nn
  | .addImm x nn => encodeXNN 0x7 x nn
  | .ldReg x y => encodeXYN 0x8 x y 0x0
  | .orReg x y => encodeXYN 0x8 x y 0x1
  | .andReg x y => encodeXYN 0x8 x y 0x2
  | .xorReg x y => encodeXYN 0x8 x y 0x3
  | .addReg x y => encodeXYN 0x8 x y 0x4
  | .sub x y => encodeXYN 0x8 x y 0x5
  | .shr x y => encodeXYN 0x8 x y 0x6
  | .subn x y => encodeXYN 0x8 x y 0x7
  | .shl x y => encodeXYN 0x8 x y 0xE
  | .sneReg x y low => encodeXYN 0x9 x y low
  | .ldI nnn => encodeNNN 0xA nnn
  | .jpV0 nnn => encodeNNN 0xB nnn
  | .rnd x nn => encodeXNN 0xC x nn
  | .drw x y n => encodeXYN 0xD x y n
  | .skp x mid => encodeXYN 0xE x mid 0xE
  | .sknp x mid => encodeXYN 0xE x mid 0x1
  | .ldVxDt x => encodeXNN 0xF x 0x07
  | .ldVxK x => encodeXNN 0xF x 0x0A
  | .ldDtVx x => encodeXNN 0xF x 0x15
  | .ldStVx x => encodeXNN 0xF x 0x18
  | .addI x => encodeXNN 0xF x 0x1E
  | .ldF x => encodeXNN 0xF x 0x29
  | .ldB x => encodeXNN 0xF x 0x33
  | .storeRegs x => encodeXNN 0xF x 0x55
  | .loadRegs x => encodeXNN 0xF x 0x65
  | .nop op => op

/-- The canonical spelling of an instruction: the ignored nibbles as in `00E0`, `00EE`, `5XY0`, `9XY0`, `EX9E`, `EXA1`,
and `Y = 0` for the shifts (R82). A `NOP` has no canonical word; it keeps its own. -/
def Instr.canonical : Instr → Instr
  | .cls _ => .cls 0x0E
  | .ret _ => .ret 0x0E
  | .jp nnn => .jp nnn
  | .call nnn => .call nnn
  | .seImm x nn => .seImm x nn
  | .sneImm x nn => .sneImm x nn
  | .seReg x y _ => .seReg x y 0x0
  | .ldImm x nn => .ldImm x nn
  | .addImm x nn => .addImm x nn
  | .ldReg x y => .ldReg x y
  | .orReg x y => .orReg x y
  | .andReg x y => .andReg x y
  | .xorReg x y => .xorReg x y
  | .addReg x y => .addReg x y
  | .sub x y => .sub x y
  | .shr x _ => .shr x 0x0
  | .subn x y => .subn x y
  | .shl x _ => .shl x 0x0
  | .sneReg x y _ => .sneReg x y 0x0
  | .ldI nnn => .ldI nnn
  | .jpV0 nnn => .jpV0 nnn
  | .rnd x nn => .rnd x nn
  | .drw x y n => .drw x y n
  | .skp x _ => .skp x 0x9
  | .sknp x _ => .sknp x 0xA
  | .ldVxDt x => .ldVxDt x
  | .ldVxK x => .ldVxK x
  | .ldDtVx x => .ldDtVx x
  | .ldStVx x => .ldStVx x
  | .addI x => .addI x
  | .ldF x => .ldF x
  | .ldB x => .ldB x
  | .storeRegs x => .storeRegs x
  | .loadRegs x => .loadRegs x
  | .nop op => .nop op

/-- The word an assembler emits (R82). -/
def assemble (i : Instr) : Word := encode i.canonical

/-! ### The opcode table as data (R75, spec/opcode_table.json) -/

/-- One row: a word `w` selects it when `w & mask = pat`, and, for `JP V0, NNN`, when `P_BNNN = jp_v0`. -/
structure OpcodeRow where
  /-- The row's place in the table, from 0. -/
  index : Nat
  pat : Word
  mask : Word
deriving DecidableEq, Repr

/-- The rows of the top nibbles `0x0` to `0x7`. -/
def opcodeRowsLow : List OpcodeRow :=
  [⟨0, 0x0000, 0xF00F⟩, ⟨1, 0x000E, 0xF00F⟩, ⟨2, 0x1000, 0xF000⟩, ⟨3, 0x2000, 0xF000⟩, ⟨4, 0x3000, 0xF000⟩,
   ⟨5, 0x4000, 0xF000⟩, ⟨6, 0x5000, 0xF000⟩, ⟨7, 0x6000, 0xF000⟩, ⟨8, 0x7000, 0xF000⟩]

/-- The rows of the family `0x8`. -/
def opcodeRows8 : List OpcodeRow :=
  [⟨9, 0x8000, 0xF00F⟩, ⟨10, 0x8001, 0xF00F⟩, ⟨11, 0x8002, 0xF00F⟩, ⟨12, 0x8003, 0xF00F⟩, ⟨13, 0x8004, 0xF00F⟩,
   ⟨14, 0x8005, 0xF00F⟩, ⟨15, 0x8006, 0xF00F⟩, ⟨16, 0x8007, 0xF00F⟩, ⟨17, 0x800E, 0xF00F⟩]

/-- The rows of the top nibbles `0x9` to `0xE`; `BNNN` only under `P_BNNN = jp_v0`. -/
def opcodeRowsHigh (p : PBnnn) : List OpcodeRow :=
  [⟨18, 0x9000, 0xF000⟩, ⟨19, 0xA000, 0xF000⟩]
    ++ (match p with
        | .jpV0 => [⟨20, 0xB000, 0xF000⟩]
        | .nop => [])
    ++ [⟨21, 0xC000, 0xF000⟩, ⟨22, 0xD000, 0xF000⟩, ⟨23, 0xE00E, 0xF00F⟩, ⟨24, 0xE001, 0xF00F⟩]

/-- The rows of the family `0xF`. -/
def opcodeRowsF : List OpcodeRow :=
  [⟨25, 0xF007, 0xF0FF⟩, ⟨26, 0xF00A, 0xF0FF⟩, ⟨27, 0xF015, 0xF0FF⟩, ⟨28, 0xF018, 0xF0FF⟩, ⟨29, 0xF01E, 0xF0FF⟩,
   ⟨30, 0xF029, 0xF0FF⟩, ⟨31, 0xF033, 0xF0FF⟩, ⟨32, 0xF055, 0xF0FF⟩, ⟨33, 0xF065, 0xF0FF⟩]

/-- The default row, `NOP`. -/
def nopRow : OpcodeRow := ⟨34, 0x0000, 0x0000⟩

/-- The rows other than the default, in file order. -/
def opcodeRows (p : PBnnn) : List OpcodeRow := opcodeRowsLow ++ opcodeRows8 ++ opcodeRowsHigh p ++ opcodeRowsF

/-- The row selects the word. -/
def OpcodeRow.selects (r : OpcodeRow) (op : Word) : Bool := op &&& r.mask == r.pat

/-- The row a word selects: the first that matches, `NOP` last as the default (R75). -/
def rowOf (p : PBnnn) (op : Word) : OpcodeRow := ((opcodeRows p).find? (·.selects op)).getD nopRow

/-- The place of an instruction's row in spec/opcode_table.json. -/
def Instr.tableIndex : Instr → Nat
  | .cls _ => 0
  | .ret _ => 1
  | .jp _ => 2
  | .call _ => 3
  | .seImm _ _ => 4
  | .sneImm _ _ => 5
  | .seReg _ _ _ => 6
  | .ldImm _ _ => 7
  | .addImm _ _ => 8
  | .ldReg _ _ => 9
  | .orReg _ _ => 10
  | .andReg _ _ => 11
  | .xorReg _ _ => 12
  | .addReg _ _ => 13
  | .sub _ _ => 14
  | .shr _ _ => 15
  | .subn _ _ => 16
  | .shl _ _ => 17
  | .sneReg _ _ _ => 18
  | .ldI _ => 19
  | .jpV0 _ => 20
  | .rnd _ _ => 21
  | .drw _ _ _ => 22
  | .skp _ _ => 23
  | .sknp _ _ => 24
  | .ldVxDt _ => 25
  | .ldVxK _ => 26
  | .ldDtVx _ => 27
  | .ldStVx _ => 28
  | .addI _ => 29
  | .ldF _ => 30
  | .ldB _ => 31
  | .storeRegs _ => 32
  | .loadRegs _ => 33
  | .nop _ => 34

end Sys2Proof
end

