-- ==== Sys2Proof/Machine/Params.lean ====
section
/-! DEFINITION. The values the machine after reset holds where the spec leaves a parameter or an input open. No
statement about the machine rests on them: it holds for every `Config` and every input. -/

namespace Sys2Proof.Machine

/-- PRESUMED (log 2), unsafe: the value of `FONT_BASE` that R24 recommends, from general knowledge (D9). -/
def recommendedFontBase : Fin 433 := 0x050

/-- PRESUMED (log 2), unsafe: the font table that R24 recommends, from general knowledge (D10); five bytes a glyph,
row 0 first, the glyphs of the digits `0` to `F` in order. -/
def recommendedFont : Vector Byte 80 :=
  #v[0xF0, 0x90, 0x90, 0x90, 0xF0, 0x20, 0x60, 0x20, 0x20, 0x70,
     0xF0, 0x10, 0xF0, 0x80, 0xF0, 0xF0, 0x10, 0xF0, 0x10, 0xF0,
     0x90, 0x90, 0xF0, 0x10, 0x10, 0xF0, 0x80, 0xF0, 0x10, 0xF0,
     0xF0, 0x80, 0xF0, 0x90, 0xF0, 0xF0, 0x10, 0x20, 0x40, 0x40,
     0xF0, 0x90, 0xF0, 0x90, 0xF0, 0xF0, 0x90, 0xF0, 0x10, 0xF0,
     0xF0, 0x90, 0xF0, 0x90, 0x90, 0xE0, 0x90, 0xE0, 0x90, 0xE0,
     0xF0, 0x80, 0x80, 0x80, 0xF0, 0xE0, 0x90, 0x90, 0x90, 0xE0,
     0xF0, 0x80, 0xF0, 0x80, 0xF0, 0xF0, 0x80, 0xF0, 0x80, 0x80]

/-- DESIGN CHOICE (log 3), unsafe: `P_BNNN = jp_v0` after reset; the spec gives the parameter no default (D12). -/
def chosenPBnnn : PBnnn := .jpV0

/-- The configuration of `State.reset`. -/
def recommendedConfig : Config :=
  { fontBase := recommendedFontBase, font := recommendedFont, pBnnn := chosenPBnnn }

/-- DESIGN CHOICE (log 4), unsafe: all keys up before the host first writes the keypad; R30 leaves it open. -/
def keysBeforeHost : Vector Bool 16 := Vector.replicate 16 false

end Sys2Proof.Machine
end

