-- ==== Sys2Proof/Machine/State.lean ====
section
/-! DEFINITION. The state of the machine, all that 10_state.md gives it, as plain data; the reasons of R151; the
state after reset (R40, R180). -/

namespace Sys2Proof.Machine

/-- The memory of R20 as a list of (address, byte) pairs in the canonical form of `Memory.wf` (Ops.lean). -/
abbrev Memory := List Host.Cell

/-- The framebuffer of R31: row `y` is element `y`; the pixel of column `x` is bit `x` of its row, 1 = set
(DESIGN CHOICE, safe; log 19). -/
abbrev Framebuffer := Vector (BitVec 64) 32

/-- The state of the machine. -/
structure State where
  /-- `mem` (R20). -/
  mem : Memory
  /-- `x[0]` to `x[15]`; `x[15]` is the flag register (R21, R22). -/
  regs : Vector Byte 16
  /-- The index register (R23). -/
  I : Word
  /-- The program counter (R25). -/
  pc : Word
  /-- `stack[0]` to `stack[15]` (R26). -/
  stack : Vector Word 16
  /-- The stack pointer, 0 to 16 (R27; log 19). -/
  sp : Fin 17
  /-- The delay timer (R28). -/
  dt : Byte
  /-- The sound timer (R29). -/
  st : Byte
  /-- The framebuffer (R31). -/
  fb : Framebuffer
  /-- `FAULT`: the core has faulted and executes nothing more (R33). -/
  fault : Bool
  /-- `CAUSE`: the code of R151, 0 for none (R33). -/
  cause : BitVec 3
  /-- `FINFO` (R33). -/
  finfo : Word
  /-- The current-opcode latch (R35). -/
  op : Word
  /-- The instruction-history log, oldest first (R38). -/
  history : List Word
  /-- The keypad port: `key[k]` as the host last wrote it, true = pressed (R30, R161; log 4). -/
  keys : Vector Bool 16
  /-- The random port: the bytes the host has lined up for the next `RND`s, the next one first (R164; log 5). -/
  draws : List Byte
  /-- The model's own counter of free random draws: the argument of `Config.randomByte` (R128; log 5). -/
  drawCount : Nat
  /-- The parameters, fixed for the life of the machine (R5, R39; log 1). -/
  config : Config
deriving DecidableEq, Repr

/-- The seven causes of R151, with what `FINFO` records. Raising one is no stop: the fault is TAKEN, as R152 says, in a
next state whose latches are set (log 7). No meaning and no step answers `Host.Outcome.fault`. -/
inductive Fault where
  /-- Code 1, raised by the fetch of any step with `pc > 0xFFE` (R91). Safe: the source leaves the fetch undefined. -/
  | fetchRange (pc : Word)
  /-- Code 2, raised by `CALL` at `sp = 16`; `site` is the address of the `CALL` (R101). Safe. -/
  | stackOverflow (site : Word)
  /-- Code 3, raised by `RET` at `sp = 0`; `site` is the address of the `RET` (R102). Safe. -/
  | stackUnderflow (site : Word)
  /-- Code 4, raised by `DRW`, `LD B`, `LD [I], Vx`, `LD Vx, [I]` for an effective address above `0xFFF` (R52). Safe. -/
  | memRange (address : Nat)
  /-- Code 5, raised by `DRW` for a sprite bit equal to 1 outside the screen; `site` is its address (R131). Safe. -/
  | fbRange (site : Word)
  /-- Code 6, raised by `SKP` and `SKNP` for a key number above 15 (R135, R136). Safe. -/
  | keyRange (key : Byte)
  /-- Code 7, raised by the host's `load` for more than 3584 bytes (R184). Safe. -/
  | loadRange (length : Nat)
deriving DecidableEq, Repr

/-- Why an instruction has no meaning. Every instruction of this machine has one. -/
inductive Refusal where
  /-- An instruction whose arm is not written yet; raised by no arm. Safe: nothing is proved of it. -/
  | notModelled (mnemonic : String)
deriving DecidableEq, Repr

/-- The state after `new()` under the parameters `c` (R40, R180). What the spec does not state: `keys`, `draws`,
`drawCount` (log 4, 5). -/
def State.resetWith (c : Config) : State where
  mem := []
  regs := Vector.replicate 16 0
  I := 0
  pc := 0x0200
  stack := Vector.replicate 16 0
  sp := 0
  dt := 0
  st := 0
  fb := Vector.replicate 32 0
  fault := false
  cause := 0
  finfo := 0
  op := 0
  history := []
  keys := keysBeforeHost
  draws := []
  drawCount := 0
  config := c

/-- The machine right after reset, with the parameter values the log names (log 2, 3). -/
def State.reset : State := State.resetWith recommendedConfig

end Sys2Proof.Machine
end

