-- ==== Sys2Proof/Machine/Ops.lean ====
section
/-! DEFINITION. The named operations over memory, registers, the stack and the fault latches: `MemRead` and `MemWrite`
(20_memory.md R52, R53), the accessors of 10_state.md, taking a fault (60_exceptions.md R152). There is no return from
a fault (R154). -/

namespace Sys2Proof.Machine

/-! ### Memory -/

/-- What an unlisted address reads as: the reset content of `mem` (R20, R24): the font table, else zero. Stated from
the program region down, so that it needs no parameter there (`FONT_BASE + 80 <= 0x200`, R24). -/
def Memory.initial (c : Config) (a : Nat) : Byte :=
  if progBase ≤ a then 0
  else if c.fontBase.val ≤ a then c.font[a - c.fontBase.val]?.getD 0
  else 0

/-- The byte at address `a`. -/
def Memory.get (c : Config) : Memory → Nat → Byte
  | [], a => Memory.initial c a
  | (b, v) :: rest, a => if a = b then v else Memory.get c rest a

/-- The list without address `a`'s cell, or with it put first, as the canonical form asks (log 14). -/
def Memory.put (c : Config) (a : Nat) (v : Byte) (rest : Memory) : Memory :=
  if v = Memory.initial c a then rest else (a, v) :: rest

/-- The memory with the byte at address `a` changed to `v`. -/
def Memory.set (c : Config) : Memory → Nat → Byte → Memory
  | [], a, v => Memory.put c a v []
  | (b, w) :: rest, a, v =>
    if a < b then Memory.put c a v ((b, w) :: rest)
    else if a = b then Memory.put c a v rest
    else (b, w) :: Memory.set c rest a v

/-- Every listed address is at least `low`, the addresses rise strictly, none is above `0xFFF`, and no entry equals
what an unlisted address reads as. -/
def Memory.wfFrom (c : Config) : Nat → Memory → Bool
  | _, [] => true
  | low, (a, v) :: rest => decide (low ≤ a ∧ a ≤ topAddress ∧ v ≠ Memory.initial c a) && Memory.wfFrom c (a + 1) rest

/-- The canonical form of memory (log 14). -/
def Memory.wf (c : Config) (m : Memory) : Bool := Memory.wfFrom c 0 m

/-- The byte at address `a`, as the machine's `mem[a]`. -/
def State.byteAt (s : State) (a : Nat) : Byte := Memory.get s.config s.mem a

/-- `MemRead(addr, 1)` (R52): the address is an unbounded natural number, never masked. -/
def State.memRead (s : State) (a : Nat) : Except Fault Byte :=
  if a ≤ topAddress then .ok (s.byteAt a) else .error (.memRange a)

/-- `mem[a] <- v`, for an address in range. -/
def State.setByte (s : State) (a : Nat) (v : Byte) : State := { s with mem := Memory.set s.config s.mem a v }

/-- `MemWrite(addr, 1, v)` (R53). -/
def State.memWrite (s : State) (a : Nat) (v : Byte) : Except Fault State :=
  if a ≤ topAddress then .ok (s.setByte a v) else .error (.memRange a)

/-- `MemWrite` of the bytes `vs` at `a`, `a + 1`, ... in ascending order (R55); the lowest offending address is the one
reported (R155). -/
def State.memWriteAll (s : State) (a : Nat) : List Byte → Except Fault State
  | [] => .ok s
  | v :: vs => (s.memWrite a v).bind fun s' => s'.memWriteAll (a + 1) vs

/-- `MemRead` of the `n` bytes at `a`, `a + 1`, ... in ascending order (R55). -/
def State.memReadAll (s : State) (a : Nat) : Nat → Except Fault (List Byte)
  | 0 => .ok []
  | n + 1 => (s.memRead a).bind fun v => (s.memReadAll (a + 1) n).map (v :: ·)

/-! ### Registers, index, program counter -/

/-- `x[i]` (R8, R21). -/
def State.reg (s : State) (i : Nibble) : Byte := s.regs[i.toNat]'(i.isLt)

/-- `x[i] <- v` (R8, R21); no register is hardwired. -/
def State.setReg (s : State) (i : Nibble) (v : Byte) : State := { s with regs := s.regs.set i.toNat v i.isLt }

/-- `x[0] <- vs[0]`, `x[1] <- vs[1]`, ... from register `k` up, in order; at most 16 (R145). -/
def State.setRegsFrom (s : State) (k : Nat) : List Byte → State
  | [] => s
  | v :: vs => (s.setReg (BitVec.ofNat 4 k) v).setRegsFrom (k + 1) vs

/-- `I <- v` (R23). -/
def State.setI (s : State) (v : Word) : State := { s with I := v }

/-- `pc <- v` (R25). -/
def State.setPc (s : State) (v : Word) : State := { s with pc := v }

/-- `pc <- pc + 2` (R92, and the extra increment of a skip, R103). -/
def State.advance (s : State) : State := s.setPc (s.pc + 2)

/-- `pc <- pc - 2`: the rewind of `LD Vx, K` (R137). -/
def State.rewind (s : State) : State := s.setPc (s.pc - 2)

/-- The address of the instruction being executed, `pc - 2` as its handler sees `pc` (R9, R151; log 9). -/
def State.site (s : State) : Word := s.pc - 2

/-- `dt <- v` (R28). -/
def State.setDt (s : State) (v : Byte) : State := { s with dt := v }

/-- `st <- v` (R29). -/
def State.setSt (s : State) (v : Byte) : State := { s with st := v }

/-! ### The return stack (R26, R27) -/

/-- `stack[k]` (R26); 0 for a `k` that is no entry. -/
def State.stackAt (s : State) (k : Nat) : Word := s.stack[k]?.getD 0

/-- Push `v`: `stack[sp] <- v`, then `sp <- sp + 1`; at `sp = 16` nothing is pushed and the stack overflows (R101). -/
def State.push (s : State) (v : Word) : Except Fault State :=
  if h : s.sp.val < 16 then
    .ok { s with stack := s.stack.set s.sp.val v h, sp := ⟨s.sp.val + 1, by omega⟩ }
  else .error (.stackOverflow s.site)

/-- Pop into `pc`: `sp <- sp - 1`, then `pc <- stack[sp]`; the popped entry stays (R102, R26). -/
def State.popPc (s : State) : Except Fault State :=
  if h : 0 < s.sp.val then
    .ok { s with sp := ⟨s.sp.val - 1, by omega⟩, pc := s.stackAt (s.sp.val - 1) }
  else .error (.stackUnderflow s.site)

/-! ### The framebuffer (R31) -/

/-- `fb[py][px]` of a framebuffer; false outside the grid. -/
def Framebuffer.pixel (f : Framebuffer) (px py : Nat) : Bool := (f[py]?.getD 0).getLsbD px

/-- `fb[py][px] <- fb[py][px] ^ 1`; outside the grid nothing changes. -/
def Framebuffer.toggle (f : Framebuffer) (px py : Nat) : Framebuffer :=
  if h : py < 32 then f.set py (f[py] ^^^ BitVec.twoPow 64 px) h else f

/-- All 2048 pixels clear. -/
def Framebuffer.clear : Framebuffer := Vector.replicate 32 0

/-- `fb[py][px]` (R31). -/
def State.pixel (s : State) (px py : Nat) : Bool := Framebuffer.pixel s.fb px py

/-- Replace the framebuffer. -/
def State.setFb (s : State) (f : Framebuffer) : State := { s with fb := f }

/-! ### The input ports (R161, R164) -/

/-- `key[k] = 1`; false for a `k` that is no key. -/
def State.keyDown (s : State) (k : Nat) : Bool := s.keys[k]?.getD false

/-- The least pressed key: the scan "key 0 through key 15" (R137). -/
def State.leastKey (s : State) : Option Nat := (List.range keyCount).find? s.keyDown

/-- The byte `rand()` yields in this state: the next one the host lined up, else a free value (R164; log 5). -/
def State.randByte (s : State) : Byte :=
  match s.draws with
  | [] => Config.randomByte s.drawCount
  | b :: _ => b

/-- The port after one sample of it. -/
def State.consumeDraw (s : State) : State :=
  match s.draws with
  | [] => { s with drawCount := s.drawCount + 1 }
  | _ :: bs => { s with draws := bs }

/-! ### Taking a fault (R151, R152) -/

/-- The cause code of R151. -/
def Fault.code : Fault → BitVec 3
  | .fetchRange _ => 1
  | .stackOverflow _ => 2
  | .stackUnderflow _ => 3
  | .memRange _ => 4
  | .fbRange _ => 5
  | .keyRange _ => 6
  | .loadRange _ => 7

/-- What `FINFO` records (R151): an address is stored mod 65536, a length as `min(length, 0xFFFF)`. -/
def Fault.info : Fault → Word
  | .fetchRange pc => pc
  | .stackOverflow site => site
  | .stackUnderflow site => site
  | .memRange address => BitVec.ofNat 16 address
  | .fbRange site => site
  | .keyRange key => key.setWidth 16
  | .loadRange length => BitVec.ofNat 16 (min length 0xFFFF)

/-- Fault entry (R152): the latches are written and nothing else; control goes nowhere. -/
def State.takeFault (s : State) (f : Fault) : State := { s with fault := true, cause := f.code, finfo := f.info }

/-- End a handler that began in `s` (R152): if it raised a fault, every write of the step is discarded, the advance of
`pc` among them, and the fault is taken. -/
def State.settle (s : State) : Except Fault State → Host.Outcome State Fault Refusal
  | .ok s' => .next s'
  | .error f => .next (s.rewind.takeFault f)

end Sys2Proof.Machine
end

