-- ==== Sys2Proof/Machine/Cycle.lean ====
section
/-! DEFINITION. The phases of a step around the handler (40_cycle_and_dispatch.md R90 to R96): fetch, history, timer
tick, and laying a word out in memory as the fetch reads it. -/

namespace Sys2Proof.Machine

/-- The highest `pc` that can be fetched from, `0xFFE` (R91). -/
def fetchLimit : Nat := topAddress - 1

/-- Both bytes of the fetch lie in memory (R91). `pc` is used as a 16-bit value with no masking. -/
def State.canFetch (s : State) : Bool := decide (s.pc.toNat ≤ fetchLimit)

/-- The word at an address, big-endian: `mem[a] ++ mem[a+1]` (R54, R91). -/
def State.wordAt (s : State) (a : Nat) : Word := wordOfBytes (s.byteAt a) (s.byteAt (a + 1))

/-- The word the step fetches (R91). -/
def State.fetchWord (s : State) : Word := s.wordAt s.pc.toNat

/-- The instruction the step runs: `decode(op)` under the machine's `P_BNNN` (R75, R93). -/
def State.fetchInstr (s : State) : Instr := decodeWord s.config.pBnnn s.fetchWord

/-- A timer's tick: minus 1 if it is not zero (R94). -/
def tickByte (v : Byte) : Byte := if v = 0 then 0 else v - 1

/-- The timer tick of both timers (R94). -/
def State.tick (s : State) : State := (s.setDt (tickByte s.dt)).setSt (tickByte s.st)

/-- The log with one more opcode; if it then holds more than 50 entries, the oldest is removed (R38, R96). -/
def appendHistory (h : List Word) (op : Word) : List Word :=
  if historyDepth < (h ++ [op]).length then (h ++ [op]).tail else h ++ [op]

/-- Keep the fetched opcode: in the latch (R35) and in the history log (R96). -/
def State.record (s : State) (op : Word) : State := { s with op := op, history := appendHistory s.history op }

/-- What follows the handler of the opcode `op` in a step: a step whose handler faulted is annulled and does nothing
more (R94, R96, R152); any other keeps its opcode and ticks the timers. The latch and the log are written here, not
before the handler, which cannot tell (DESIGN CHOICE, safe; log 8). -/
def State.finish (s : State) (op : Word) : State := if s.fault then s else (s.record op).tick

/-- The bytes of the word `op` at `a`, `a + 1`, as the fetch reads them (R54). -/
def State.placeWord (s : State) (a : Nat) (op : Word) : State := (s.setByte a (highByte op)).setByte (a + 1) (lowByte op)

end Sys2Proof.Machine
end

