-- ==== Sys2Proof/Machine/Flags.lean ====
section
/-! DEFINITION. The flag computations, all that write `x[F]` as a side effect (10_state.md R22), and the two write
orders of 42_arithmetic_logic.md R122. The value written is always 0 or 1. -/

namespace Sys2Proof.Machine

/-- A flag value as the byte `x[F]` receives (R22). -/
def flagByte (b : Bool) : Byte := if b then 1 else 0

/-- The carry out of `a + b`: the 9-bit sum exceeds 255 (R116). -/
def carryOut (a b : Byte) : Bool := decide (a.toNat + b.toNat > 255)

/-- No borrow in `a - b`: minuend >= subtrahend (R117, R118). -/
def noBorrow (a b : Byte) : Bool := decide (a.toNat ≥ b.toNat)

/-- The bit a right shift shifts out (R119). -/
def lowBit (v : Byte) : Bool := v.getLsbD 0

/-- The bit a left shift shifts out (R120). -/
def highBit (v : Byte) : Bool := v.getLsbD 7

/-- `x[F] <- flag` (R22). -/
def State.setFlag (s : State) (b : Bool) : State := s.setReg flagReg (flagByte b)

/-- Write the flag, then the result (R122 (a)): with `x = 15` the register ends holding the result. -/
def State.setFlagThenReg (s : State) (b : Bool) (x : Nibble) (v : Byte) : State := (s.setFlag b).setReg x v

/-- Write the flag, then read the operand register AGAIN and shift it (R122 (b)). -/
def State.setFlagThenShift (s : State) (b : Bool) (x : Nibble) (shift : Byte → Byte) : State :=
  (s.setFlag b).setReg x (shift ((s.setFlag b).reg x))

end Sys2Proof.Machine
end

