-- ==== Sys2Proof/Machine/Alu.lean ====
section
/-! DEFINITION. Immediate, copy, logic, arithmetic and shift instructions (42_arithmetic_logic.md R110 to R122). None
can fault; `pc` stays at the advanced value. -/

namespace Sys2Proof.Machine

/-- `LD Vx, NN` (R110). -/
def execLdImm (x : Nibble) (nn : Byte) (s : State) : Host.Outcome State Fault Refusal :=
  .next (s.setReg x nn)

/-- `ADD Vx, NN` (R111): wraps mod 256, no flag. -/
def execAddImm (x : Nibble) (nn : Byte) (s : State) : Host.Outcome State Fault Refusal :=
  .next (s.setReg x (s.reg x + nn))

/-- `LD Vx, Vy` (R112). -/
def execLdReg (x y : Nibble) (s : State) : Host.Outcome State Fault Refusal :=
  .next (s.setReg x (s.reg y))

/-- `OR Vx, Vy` (R113): no flag. -/
def execOrReg (x y : Nibble) (s : State) : Host.Outcome State Fault Refusal :=
  .next (s.setReg x (s.reg x ||| s.reg y))

/-- `AND Vx, Vy` (R114): no flag. -/
def execAndReg (x y : Nibble) (s : State) : Host.Outcome State Fault Refusal :=
  .next (s.setReg x (s.reg x &&& s.reg y))

/-- `XOR Vx, Vy` (R115): no flag. -/
def execXorReg (x y : Nibble) (s : State) : Host.Outcome State Fault Refusal :=
  .next (s.setReg x (s.reg x ^^^ s.reg y))

/-- `ADD Vx, Vy` (R116, R122 (a)): both operands sampled, the carry written, then the sum. -/
def execAddReg (x y : Nibble) (s : State) : Host.Outcome State Fault Refusal :=
  .next (s.setFlagThenReg (carryOut (s.reg x) (s.reg y)) x (s.reg x + s.reg y))

/-- `SUB Vx, Vy` (R117, R122 (a)): `Vx - Vy`. -/
def execSub (x y : Nibble) (s : State) : Host.Outcome State Fault Refusal :=
  .next (s.setFlagThenReg (noBorrow (s.reg x) (s.reg y)) x (s.reg x - s.reg y))

/-- `SUBN Vx, Vy` (R118, R122 (a)): `Vy - Vx`, into `Vx`. -/
def execSubn (x y : Nibble) (s : State) : Host.Outcome State Fault Refusal :=
  .next (s.setFlagThenReg (noBorrow (s.reg y) (s.reg x)) x (s.reg y - s.reg x))

/-- `SHR Vx` (R119, R122 (b)): the flag first, then the register is read again and shifted, logically, by one. -/
def execShr (x : Nibble) (s : State) : Host.Outcome State Fault Refusal :=
  .next (s.setFlagThenShift (lowBit (s.reg x)) x (· >>> 1))

/-- `SHL Vx` (R120, R122 (b)). -/
def execShl (x : Nibble) (s : State) : Host.Outcome State Fault Refusal :=
  .next (s.setFlagThenShift (highBit (s.reg x)) x (· <<< 1))

end Sys2Proof.Machine
end

