-- ==== Sys2Proof/Machine/Operands.lean ====
section
/-! DEFINITION. The operand forms (30_encoding.md R74): registers named by a field, immediates at their own width or
zero-extended, implicit registers, and the one addressing mode `I + k` (46_memory_transfer.md R146). -/

namespace Sys2Proof.Machine

/-- `zext_16(NNN)` (R74). -/
def zextNNN (nnn : Imm12) : Word := nnn.setWidth 16

/-- `zext_16` of a register (R74). -/
def zextByte (v : Byte) : Word := v.setWidth 16

/-- The effective address `I + k`, an exact natural number: not reduced mod 4096, not wrapped at 65536 (R52, R146). -/
def State.effAddr (s : State) (k : Nat) : Nat := s.I.toNat + k

/-- The registers `V0` to `Vx` in order, inclusive (R144). -/
def State.regsUpTo (s : State) (x : Nibble) : List Byte := s.regs.toList.take (x.toNat + 1)

/-- The decimal digits of a byte: hundreds, tens, ones, each a whole byte (R143). -/
def bcdDigits (v : Byte) : List Byte := [v / 100, v / 10 % 10, v % 10]

/-- `FONT_BASE + 5 * zext_16(v)`, the digit not masked (R127; D17, log 21). -/
def State.glyphAddr (s : State) (v : Byte) : Word :=
  BitVec.ofNat 16 (s.config.fontBase.val + glyphBytes * v.toNat)

/-- The start column of a sprite, `x[X] mod 64` (R131). -/
def State.spriteCol (s : State) (x : Nibble) : Nat := (s.reg x).toNat % fbWidth

/-- The start row of a sprite, `x[Y] mod 32` (R131). -/
def State.spriteRow (s : State) (y : Nibble) : Nat := (s.reg y).toNat % fbHeight

/-- The bit of a sprite byte for column `col` of its row: bit 7 is the leftmost (R131; D26, log 18). -/
def spriteBit (b : Byte) (col : Nat) : Bool := b.getLsbD (7 - col)

/-- The target `NNN + x[0]` of `JP V0`: 0 to `0x10FE`, no wrap, no masking (R107). -/
def State.offsetTarget (s : State) (nnn : Imm12) : Word := zextNNN nnn + zextByte (s.reg 0)

end Sys2Proof.Machine
end

