-- ==== Sys2Proof/Machine/Block.lean ====
section
/-! DEFINITION. Memory block transfer (46_memory_transfer.md R143 to R146): `I` is a read-only base (D16, log 21), the
bytes go in ascending order, and a fault annuls the whole transfer. -/

namespace Sys2Proof.Machine

/-- `LD B, Vx` (R143). -/
def execLdB (x : Nibble) (s : State) : Host.Outcome State Fault Refusal :=
  s.settle (s.memWriteAll (s.effAddr 0) (bcdDigits (s.reg x)))

/-- `LD [I], Vx` (R144). -/
def execStoreRegs (x : Nibble) (s : State) : Host.Outcome State Fault Refusal :=
  s.settle (s.memWriteAll (s.effAddr 0) (s.regsUpTo x))

/-- `LD Vx, [I]` (R145). -/
def execLoadRegs (x : Nibble) (s : State) : Host.Outcome State Fault Refusal :=
  s.settle ((s.memReadAll (s.effAddr 0) (x.toNat + 1)).map (s.setRegsFrom 0))

end Sys2Proof.Machine
end

