-- ==== Sys2Proof/Machine/Display.lean ====
section
/-! DEFINITION. Display instructions (44_display.md R130 to R133). The draw loop is written pixel by pixel, in the
order of R131's pseudocode, so that the first fault met is the one reported (R155). -/

namespace Sys2Proof.Machine

/-- The drawing so far: the framebuffer, and whether a set pixel became clear (the value of `x[F]`). -/
abbrev Drawing := Framebuffer × Bool

/-- One sprite bit of value `b` at column `px`, row `py`; a 0 bit is never checked (R131). -/
def drawPixel (site : Word) (px py : Nat) (b : Bool) (d : Drawing) : Except Fault Drawing :=
  if b = false then .ok d
  else if px ≥ fbWidth ∨ py ≥ fbHeight then .error (.fbRange site)
  else .ok (Framebuffer.toggle d.1 px py, d.2 || Framebuffer.pixel d.1 px py)

/-- The columns `cols`, in order, of one row of a sprite. -/
def drawCols (site : Word) (b : Byte) (x0 py : Nat) : List Nat → Drawing → Except Fault Drawing
  | [], d => .ok d
  | col :: cols, d => (drawPixel site (x0 + col) py (spriteBit b col) d).bind (drawCols site b x0 py cols)

/-- The rows `rows`, in order, of the sprite at `I`, for the `DRW` that began in `s`: the sprite byte is read before
the pixels of its row. -/
def drawRows (s : State) (x0 y0 : Nat) : List Nat → Drawing → Except Fault Drawing
  | [], d => .ok d
  | row :: rows, d =>
    (s.memRead (s.effAddr row)).bind fun b =>
      (drawCols s.site b x0 (y0 + row) (List.range 8) d).bind (drawRows s x0 y0 rows)

/-- `CLS` (R130): `x[F]` is not written. -/
def execCls (s : State) : Host.Outcome State Fault Refusal :=
  .next (s.setFb Framebuffer.clear)

/-- `DRW Vx, Vy, N` (R131): the coordinates are sampled before `x[F]` is reset (D15, log 16); nothing in the loop reads
`x[F]`, which ends as the collision. -/
def execDrw (x y n : Nibble) (s : State) : Host.Outcome State Fault Refusal :=
  s.settle ((drawRows s (s.spriteCol x) (s.spriteRow y) (List.range n.toNat) (s.fb, false)).map
    fun d => (s.setFb d.1).setFlag d.2)

end Sys2Proof.Machine
end

