-- ==== Sys2Proof/Machine/Flow.lean ====
section
/-! DEFINITION. Flow control (41_flow_control.md R100 to R108) and the no-op handler (40_cycle_and_dispatch.md R95).
On entry `pc` is the instruction's address plus 2 (R9). -/

namespace Sys2Proof.Machine

/-- A skip: the extra increment of `pc` when the condition holds (R103). -/
def State.skipIf (s : State) (b : Bool) : State := if b then s.advance else s

/-- `JP NNN` (R100): the target is not checked. -/
def execJp (nnn : Imm12) (s : State) : Host.Outcome State Fault Refusal :=
  .next (s.setPc (zextNNN nnn))

/-- `CALL NNN` (R101): pushes then increments, then jumps; `StackOverflow` at `sp = 16`. -/
def execCall (nnn : Imm12) (s : State) : Host.Outcome State Fault Refusal :=
  s.settle ((s.push s.pc).map (·.setPc (zextNNN nnn)))

/-- `RET` (R102): decrements then pops into `pc`; `StackUnderflow` at `sp = 0`. -/
def execRet (s : State) : Host.Outcome State Fault Refusal :=
  s.settle s.popPc

/-- `SE Vx, NN` (R103). -/
def execSeImm (x : Nibble) (nn : Byte) (s : State) : Host.Outcome State Fault Refusal :=
  .next (s.skipIf (s.reg x == nn))

/-- `SNE Vx, NN` (R104). -/
def execSneImm (x : Nibble) (nn : Byte) (s : State) : Host.Outcome State Fault Refusal :=
  .next (s.skipIf (s.reg x != nn))

/-- `SE Vx, Vy` (R105). -/
def execSeReg (x y : Nibble) (s : State) : Host.Outcome State Fault Refusal :=
  .next (s.skipIf (s.reg x == s.reg y))

/-- `SNE Vx, Vy` (R106). -/
def execSneReg (x y : Nibble) (s : State) : Host.Outcome State Fault Refusal :=
  .next (s.skipIf (s.reg x != s.reg y))

/-- `JP V0, NNN` (R107): both values of the parameter `P_BNNN`; under `nop` the word is a `NOP`. -/
def execJpV0 (nnn : Imm12) (s : State) : Host.Outcome State Fault Refusal :=
  match s.config.pBnnn with
  | .jpV0 => .next (s.setPc (s.offsetTarget nnn))
  | .nop => .next s

/-- `NOP` (R95): the handler does nothing. -/
def execNop (s : State) : Host.Outcome State Fault Refusal :=
  .next s

end Sys2Proof.Machine
end

