-- ==== Sys2Proof/Machine/Index.lean ====
section
/-! DEFINITION. Index-register and random instructions (43_index_random.md R125 to R128). None accesses memory, writes
a flag or can fault. -/

namespace Sys2Proof.Machine

/-- `LD I, NNN` (R125). -/
def execLdI (nnn : Imm12) (s : State) : Host.Outcome State Fault Refusal :=
  .next (s.setI (zextNNN nnn))

/-- `ADD I, Vx` (R126): wraps mod 65536; no flag, no masking to 12 bits. -/
def execAddI (x : Nibble) (s : State) : Host.Outcome State Fault Refusal :=
  .next (s.setI (s.I + zextByte (s.reg x)))

/-- `LD F, Vx` (R127). -/
def execLdF (x : Nibble) (s : State) : Host.Outcome State Fault Refusal :=
  .next (s.setI (s.glyphAddr (s.reg x)))

/-- `RND Vx, NN` (R128): one sample of the random port, masked. -/
def execRnd (x : Nibble) (nn : Byte) (s : State) : Host.Outcome State Fault Refusal :=
  .next (s.consumeDraw.setReg x (s.randByte &&& nn))

end Sys2Proof.Machine
end

