-- ==== Sys2Proof/Machine/Input.lean ====
section
/-! DEFINITION. Keypad and timer instructions (45_input_timers.md R135 to R141). The tick of the same step comes after
the handler (R94). -/

namespace Sys2Proof.Machine

/-- The keypad "indexed by a register value", the whole byte; `KeyRange` above 15 (R135). -/
def State.keyOf (s : State) (v : Byte) : Except Fault Bool :=
  if v.toNat < keyCount then .ok (s.keyDown v.toNat) else .error (.keyRange v)

/-- `SKP Vx` (R135). -/
def execSkp (x : Nibble) (s : State) : Host.Outcome State Fault Refusal :=
  s.settle ((s.keyOf (s.reg x)).map fun down => s.skipIf down)

/-- `SKNP Vx` (R136). -/
def execSknp (x : Nibble) (s : State) : Host.Outcome State Fault Refusal :=
  s.settle ((s.keyOf (s.reg x)).map fun down => s.skipIf (!down))

/-- `LD Vx, K` (R137): the least pressed key (D18, log 20), or back to the instruction itself. -/
def execLdVxK (x : Nibble) (s : State) : Host.Outcome State Fault Refusal :=
  match s.leastKey with
  | some k => .next (s.setReg x (BitVec.ofNat 8 k))
  | none => .next s.rewind

/-- `LD Vx, DT` (R138). -/
def execLdVxDt (x : Nibble) (s : State) : Host.Outcome State Fault Refusal :=
  .next (s.setReg x s.dt)

/-- `LD DT, Vx` (R139). -/
def execLdDtVx (x : Nibble) (s : State) : Host.Outcome State Fault Refusal :=
  .next (s.setDt (s.reg x))

/-- `LD ST, Vx` (R140). -/
def execLdStVx (x : Nibble) (s : State) : Host.Outcome State Fault Refusal :=
  .next (s.setSt (s.reg x))

end Sys2Proof.Machine
end

