-- ==== Sys2Proof/Machine/Step.lean ====
section
/-! DEFINITION. One step of the machine (40_cycle_and_dispatch.md R90), and where its next instruction lies. -/

namespace Sys2Proof.Machine

/-- `step()` (R90): a faulted core does nothing (R153); the fetch is checked (R91); else the word is fetched, `pc`
advanced (R92), the handler run (R93) and, unless it faulted, the timers ticked (R94). -/
def step (s : State) : Host.Outcome State Fault Refusal :=
  if s.fault then .next s
  else if s.canFetch then
    match exec s.fetchInstr s.advance with
    | .next t => .next (t.finish s.fetchWord)
    | .fault r => .fault r
    | .refused r => .refused r
  else .next (s.takeFault (.fetchRange s.pc))

/-- `s` with the word `w` where `step` fetches its next instruction. Where `pc` can be fetched from nowhere, no memory
would hold it and nothing changes (log 12). -/
def State.withFetchWord (s : State) (nbits w : Nat) : State :=
  if s.canFetch then s.placeWord s.pc.toNat (tableWord nbits w) else s

end Sys2Proof.Machine
end

