-- ==== Sys2Proof/Machine/HostPort.lean ====
section
/-! DEFINITION. The host's operations on the core (60_exceptions.md R160 to R167, 70_reset_and_hazards.md R180 to R185)
and its protocol (R165). -/

namespace Sys2Proof.Machine

/-- `new()` applied again, in any state (R180, R181): the reset state, but for what lies outside the core: the keypad
the host drives (R181), the random port and its draws (R36), and the parameters (R39); log 22. -/
def State.renew (s : State) : State :=
  { State.resetWith s.config with keys := s.keys, draws := s.draws, drawCount := s.drawCount }

/-- `mem[a + i] <- bytes[i]`, each address in range. -/
def State.copyBytes (s : State) (a : Nat) : List Byte → State
  | [] => s
  | v :: vs => (s.setByte a v).copyBytes (a + 1) vs

/-- `load(bytes)` (R184): nothing on a faulted core (R153); refused whole, with `LoadRange`, above 3584 bytes. A source
that cannot be read is no `load` at all (R185). -/
def State.load (s : State) (bytes : List Byte) : State :=
  if s.fault then s
  else if bytes.length ≤ maxRom then s.copyBytes progBase bytes
  else s.takeFault (.loadRange bytes.length)

/-- The keypad mutator, all 16 keys at once (R160, R161). -/
def State.setKeys (s : State) (ks : Vector Bool 16) : State := { s with keys := ks }

/-- The keypad mutator, one key (R160, R161); a number that is no key changes nothing. -/
def State.setKey (s : State) (k : Nat) (down : Bool) : State :=
  if h : k < 16 then { s with keys := s.keys.set k down h } else s

/-- The host lines up the bytes its random source will present (R164; log 5). -/
def State.offerDraws (s : State) (bytes : List Byte) : State := { s with draws := bytes }

/-- The exported value of one pixel (R32). -/
def pixelValue (b : Bool) : BitVec 32 := if b then 0xFFFFFFFF else 0

/-- `framebuffer()` (R32, R162): 2048 values of 32 bits, pixel `(x, y)` at index `y*64 + x` (D26, log 18). -/
def State.framebuffer (s : State) : List (BitVec 32) :=
  (List.range (fbHeight * fbWidth)).map fun k => pixelValue (s.pixel (k % fbWidth) (k / fbWidth))

/-- `sound_active()` (R163). -/
def State.soundActive (s : State) : Bool := s.st != 0

/-- The fault read (R33, R160): `FAULT`, `CAUSE`, `FINFO`. -/
def State.faultRead (s : State) : Bool × BitVec 3 × Word := (s.fault, s.cause, s.finfo)

/-- The history accessor (R38, R167), without its text format (log 23). -/
def State.recentOpcodes (s : State) : List Word := s.history

/-- What the state dump shows (R167), without its text format. DESIGN CHOICE (log 23), safe: which fields it shows. The
spec names the general registers, the timers and the stack, and only supposes `I`, `pc` and `sp`, which are shown too. -/
structure Dump where
  regs : Vector Byte 16
  I : Word
  pc : Word
  sp : Nat
  stack : Vector Word 16
  dt : Byte
  st : Byte
deriving DecidableEq, Repr

/-- The state dump (R167). -/
def State.dump (s : State) : Dump :=
  { regs := s.regs, I := s.I, pc := s.pc, sp := s.sp.val, stack := s.stack, dt := s.dt, st := s.st }

/-- Where a machine stands in the host's protocol (R165, R182). -/
inductive Phase where
  /-- After `new()`: `load` is still allowed. -/
  | fresh
  /-- After the `load` or the first step: it no longer is. -/
  | running
deriving DecidableEq, Repr

/-- The states a host that keeps the protocol of R165 can bring the machine to: `new()` first and again at any time, at
most one `load` before the first step, the keypad and the random source driven freely between steps. A late or
repeated `load` is no move (D34, log 13). -/
inductive Reachable : Phase → State → Prop where
  | new (c : Config) (ks : Vector Bool 16) : Reachable .fresh ((State.resetWith c).setKeys ks)
  | renew (ph : Phase) (s : State) : Reachable ph s → Reachable .fresh s.renew
  | load (s : State) (bytes : List Byte) : Reachable .fresh s → Reachable .running (s.load bytes)
  | keypad (ph : Phase) (s : State) (ks : Vector Bool 16) : Reachable ph s → Reachable ph (s.setKeys ks)
  | draws (ph : Phase) (s : State) (bytes : List Byte) : Reachable ph s → Reachable ph (s.offerDraws bytes)
  | step (ph : Phase) (s t : State) : Reachable ph s → step s = .next t → Reachable .running t

end Sys2Proof.Machine
end

