-- ==== Sys2Proof/Safety.lean ====
section
/-! DEFINITION. The terms the statements are written in: the invariant of the machine (10_state.md R25, R41), the parts
of the state and the frame of an instruction, what a faulting handler leaves (60_exceptions.md R152), which words stand
for an instruction, and the pixels a sprite covers (44_display.md R131). -/

namespace Sys2Proof.Machine

/-- The invariant every step and every operation of the host keeps (R25, R34, R38, R41). That `sp` is at most 16 and
that every pixel is one bit is in the types. -/
structure State.Inv (s : State) : Prop where
  /-- Memory is in its one canonical form (log 14). -/
  memory : Memory.wf s.config s.mem = true
  /-- The log holds at most 50 opcodes (R38). -/
  history : s.history.length ≤ 50
  /-- The largest value `pc` can hold (R25). -/
  pc : s.pc.toNat ≤ 0x10FE
  /-- The largest value without `JP V0` (R25). -/
  pcWithoutJpV0 : s.config.pBnnn = .nop → s.pc.toNat ≤ 0x1002
  /-- Every return address in use is at most `0x1000` (R41). -/
  stack : ∀ k, k < s.sp.val → (s.stackAt k).toNat ≤ 0x1000
  /-- `FAULT = 0` implies `CAUSE = 0` and `FINFO = 0` (R41). -/
  clear : s.fault = false → s.cause = 0 ∧ s.finfo = 0
  /-- A faulted core has a cause (R33, R151). -/
  caused : s.fault = true → s.cause ≠ 0

/-- The parts of the state. -/
inductive StatePart where
  | memory | registers | index | pc | stack | sp | dt | st | screen | latches | op | history | keypad | random | config
deriving DecidableEq, Repr

/-- A part is the same in two states; memory as its reads see it. -/
def StatePart.same : StatePart → State → State → Prop
  | .memory, s, t => ∀ a, t.byteAt a = s.byteAt a
  | .registers, s, t => ∀ r, t.reg r = s.reg r
  | .index, s, t => t.I = s.I
  | .pc, s, t => t.pc = s.pc
  | .stack, s, t => t.stack = s.stack
  | .sp, s, t => t.sp = s.sp
  | .dt, s, t => t.dt = s.dt
  | .st, s, t => t.st = s.st
  | .screen, s, t => t.fb = s.fb
  | .latches, s, t => t.fault = s.fault ∧ t.cause = s.cause ∧ t.finfo = s.finfo
  | .op, s, t => t.op = s.op
  | .history, s, t => t.history = s.history
  | .keypad, s, t => t.keys = s.keys
  | .random, s, t => t.draws = s.draws ∧ t.drawCount = s.drawCount
  | .config, s, t => t.config = s.config

/-- The frame: every part but the `changed` ones is the same. -/
def Frame (changed : List StatePart) (s t : State) : Prop := ∀ p, p ∉ changed → p.same s t

/-- Every register but those of `xs` is the same. -/
def RegsExcept (xs : List Nibble) (s t : State) : Prop := ∀ r, r ∉ xs → t.reg r = s.reg r

/-- Every byte of memory outside the `n` bytes at `lo` reads as before. -/
def MemExcept (lo n : Nat) (s t : State) : Prop := ∀ a, a < lo ∨ lo + n ≤ a → t.byteAt a = s.byteAt a

/-- What a handler that raised a fault leaves (R152), `s` being the state it began in: the latches, `pc` back at the
instruction's own address, and everything else as it was. -/
def AnnulledWith (code : BitVec 3) (info : Word) (s t : State) : Prop :=
  t.fault = true ∧ t.cause = code ∧ t.finfo = info ∧ t.pc = s.pc - 2 ∧ Frame [.pc, .latches] s t

/-- Every word `op` with `op & mask = pat` decodes to `f op`, whatever `P_BNNN` is (R75). -/
def Selects (mask pat : Word) (f : Word → Instr) : Prop :=
  ∀ (p : PBnnn) (op : Word), op &&& mask = pat → decodeWord p op = f op

/-- The bit of the sprite at `I` for its row `row` and column `col`: bit `7 - col` of the byte at `I + row` (R131). -/
def SpriteBitSet (s : State) (row col : Nat) : Prop := (s.byteAt (s.I.toNat + row)).getLsbD (7 - col) = true

/-- The pixel `(px, py)` lies under a 1 bit of the sprite of `DRW Vx, Vy, n` (R131, R133). -/
def SpriteCovers (s : State) (x y n : Nibble) (px py : Nat) : Prop :=
  ∃ row col, row < n.toNat ∧ col < 8 ∧ SpriteBitSet s row col ∧
    px = (s.reg x).toNat % 64 + col ∧ py = (s.reg y).toNat % 32 + row

/-- Row `row` of the sprite can be drawn: its byte lies in memory and every 1 bit of it on the screen (R131). -/
def SpriteRowFits (s : State) (x y : Nibble) (row : Nat) : Prop :=
  s.I.toNat + row ≤ 0xFFF ∧
    ∀ col, col < 8 → SpriteBitSet s row col → (s.reg x).toNat % 64 + col ≤ 63 ∧ (s.reg y).toNat % 32 + row ≤ 31

end Sys2Proof.Machine
end

