-- ==== Sys2Proof/Certificates/Slice0/Obligations.lean ====
section
/-! DEFINITION. The statements for the provers. A statement about an instruction gives, in this order, the words that
stand for it, its result in every state, and its frame; `s` is the state its handler starts in, `pc` already advanced
past it (00_scope.md R9). The opcode numbers are the spec's decision D35 (log 15), the index 15 of `VF` its decision
D11 (log 16), the seven faults its decisions D2 to D8 (log 17); a docstring names any other choice its statement rests
on. -/

open Sys2Proof Sys2Proof.Machine

/-! ### Encoding and decoding (30_encoding.md) -/

/-- Decoding the word of a well-formed instruction gives it back, with every operand and every ignored nibble. -/
def Obligations.DecodeAfterEncodeIsIdentity : Prop :=
  ∀ (p : PBnnn) (i : Instr), i.wf p = true → decodeWord p (encode i) = i

/-- Every word decodes to a well-formed instruction, whose word it is. That no bit is lost, not even of the nibbles
the decoder ignores, rests on the model keeping those nibbles in the syntax (DESIGN CHOICE, log 10). -/
def Obligations.EncodeAfterDecodeIsIdentity : Prop :=
  ∀ (p : PBnnn) (op : Word), (decodeWord p op).wf p = true ∧ encode (decodeWord p op) = op

/-- The decoder resolves each word to the row of the opcode table that matches it; at most one row other than the
default matches (R75). The table follows the decisions D30 to D32 and D35 (log 15) and the open parameter D12. -/
def Obligations.DecoderAgreesWithOpcodeTable : Prop :=
  ∀ (p : PBnnn) (op : Word),
    (decodeWord p op).tableIndex = (rowOf p op).index ∧
    ∀ r₁ ∈ opcodeRows p, ∀ r₂ ∈ opcodeRows p, r₁.selects op = true → r₂.selects op = true → r₁ = r₂

/-- Words written out bit by bit from R72 and R76 to R80, one of each format and router. -/
def Obligations.WrittenWordsDecode : Prop :=
  ∀ p : PBnnn,
    decodeWord p 0b0000000011100000#16 = .cls 0x0E ∧
    decodeWord p 0b0010001100000000#16 = .call 0x300 ∧
    decodeWord p 0b0011101000000111#16 = .seImm 10 7 ∧
    decodeWord p 0b1000000100100100#16 = .addReg 1 2 ∧
    decodeWord p 0b1010001011110000#16 = .ldI 0x2F0 ∧
    decodeWord p 0b1101000000010010#16 = .drw 0 1 2 ∧
    decodeWord p 0b1110001110011110#16 = .skp 3 9 ∧
    decodeWord p 0b1111001001010101#16 = .storeRegs 2

/-! ### The step (40_cycle_and_dispatch.md) -/

/-- One step, the function of 40_cycle_and_dispatch.md section 1 (fetch limit: decision D3). A faulted core changes
nothing; a `pc` above `0xFFE` raises `FetchRange`; else the big-endian word at `pc` is decoded, its handler run with
`pc + 2`, and unless the handler faulted the word is kept in the latch and the log and each timer that is not zero is
decremented. -/
def Obligations.StepRunsDecodedInstruction : Prop :=
  ∀ s : State,
    (s.fault = true → step s = .next s) ∧
    (s.fault = false → s.pc.toNat > 0xFFE →
      step s = .next { s with fault := true, cause := 1, finfo := s.pc }) ∧
    (s.fault = false → s.pc.toNat ≤ 0xFFE →
      ∀ (i : Instr) (rest : List Byte) (t : State),
        decodeBytes s.config.pBnnn [s.byteAt s.pc.toNat, s.byteAt (s.pc.toNat + 1)] = .ok (i, rest) →
        exec i { s with pc := s.pc + 2 } = .next t →
        (t.fault = true → step s = .next t) ∧
        (t.fault = false →
          step s = .next { t with
            op := s.byteAt s.pc.toNat ++ s.byteAt (s.pc.toNat + 1)
            history := appendHistory t.history (s.byteAt s.pc.toNat ++ s.byteAt (s.pc.toNat + 1))
            dt := if t.dt = 0 then 0 else t.dt - 1
            st := if t.st = 0 then 0 else t.st - 1 }))

/-- Every state has a next step; no run of this machine stops. -/
def Obligations.EveryStateHasANextStep : Prop :=
  ∀ s : State, ∃ t, step s = .next t

/-- The faulted state (60_exceptions.md section 3, decision D2): any number of steps and any `load` change nothing at
all in it. -/
def Obligations.FaultedCoreNeverChanges : Prop :=
  ∀ s : State, s.fault = true →
    (∀ n, Host.Core.run Sys2Proof.core n s = .next s) ∧ ∀ bytes, s.load bytes = s

/-- Fault entry (60_exceptions.md section 3, decision D2): a step that faults leaves exactly the state before it plus
the three latches. -/
def Obligations.FaultEntryIsPrecise : Prop :=
  ∀ s t : State, s.fault = false → step s = .next t → t.fault = true →
    t = { s with fault := true, cause := t.cause, finfo := t.finfo } ∧ t.cause ≠ 0

/-- The table of 60_exceptions.md section 2, its rows 2 to 6 (decisions D4 to D7): which handlers fault, on what
condition, with which code and `FINFO`. No other faults. -/
def Obligations.OnlyNamedInstructionsFault : Prop :=
  ∀ (i : Instr) (s t : State), s.fault = false → exec i s = .next t → t.fault = true →
    (∃ nnn, i = .call nnn ∧ s.sp = 16 ∧ t.cause = 2 ∧ t.finfo = s.pc - 2) ∨
    (∃ mid, i = .ret mid ∧ s.sp = 0 ∧ t.cause = 3 ∧ t.finfo = s.pc - 2) ∨
    (((∃ x y n, i = .drw x y n) ∨ (∃ x, i = .ldB x) ∨ (∃ x, i = .storeRegs x) ∨ ∃ x, i = .loadRegs x) ∧
      t.cause = 4 ∧ ∃ k, k < 16 ∧ s.effAddr k > 0xFFF ∧ t.finfo = BitVec.ofNat 16 (s.effAddr k)) ∨
    (∃ x y n, i = .drw x y n ∧ t.cause = 5 ∧ t.finfo = s.pc - 2) ∨
    (∃ x mid, (i = .skp x mid ∨ i = .sknp x mid) ∧ (s.reg x).toNat > 15 ∧ t.cause = 6 ∧
      t.finfo = (s.reg x).setWidth 16)

/-- R94: in every step that does not fault, whatever the instruction, each timer ends one lower, or at 0; a timer the
handler has just written is ticked from the value written, and `LD Vx, DT` reads the value before the tick. -/
def Obligations.TimersTickOncePerStep : Prop :=
  ∀ s t : State, s.fault = false → step s = .next t → t.fault = false →
    (∀ x, s.fetchInstr = .ldDtVx x → t.dt.toNat = (s.reg x).toNat - 1) ∧
    ((∀ x, s.fetchInstr ≠ .ldDtVx x) → t.dt.toNat = s.dt.toNat - 1) ∧
    (∀ x, s.fetchInstr = .ldStVx x → t.st.toNat = (s.reg x).toNat - 1) ∧
    ((∀ x, s.fetchInstr ≠ .ldStVx x) → t.st.toNat = s.st.toNat - 1) ∧
    ∀ x, s.fetchInstr = .ldVxDt x → t.reg x = s.dt

/-- The history log (40_cycle_and_dispatch.md section 3, decision D28): a step that does not fault appends the fetched
opcode to the log and evicts the oldest entry beyond 50; a step that faults appends nothing. -/
def Obligations.HistoryKeepsTheLastFifty : Prop :=
  ∀ s t : State, s.fault = false → s.history.length ≤ 50 → step s = .next t →
    (t.fault = true → t.history = s.history) ∧
    (t.fault = false → s.history.length < 50 → t.history = s.history ++ [s.wordAt s.pc.toNat]) ∧
    (t.fault = false → s.history.length = 50 → t.history = s.history.tail ++ [s.wordAt s.pc.toNat])

/-- Every word of the no-op space is `NOP`, and a step that fetches one adds 2 to `pc`, ticks the timers and leaves
every other part of the core alone (the debug latch and log apart). The first clause is the table of 30_encoding.md
R81, which rests on the spec's decisions D30 (the key of the family `0x0`), D31 (that of the family `0xE`), D32 (every
unregistered low byte of the family `0xF`; all log 15) and D12 (the open parameter `P_BNNN`); the rest is R95. -/
def Obligations.NopSpaceOnlyAdvances : Prop :=
  (∀ (p : PBnnn) (op : Word), decodeWord p op = .nop op ↔
    (op.extractLsb' 12 4 = 0x0#4 ∧ op.extractLsb' 0 4 ∉ [0x0#4, 0xE#4]) ∨
    (op.extractLsb' 12 4 = 0x8#4 ∧ op.extractLsb' 0 4 ∈ [0x8#4, 0x9#4, 0xA#4, 0xB#4, 0xC#4, 0xD#4, 0xF#4]) ∨
    (op.extractLsb' 12 4 = 0xE#4 ∧ op.extractLsb' 0 4 ∉ [0x1#4, 0xE#4]) ∨
    (op.extractLsb' 12 4 = 0xF#4 ∧
      op.extractLsb' 0 8 ∉ [0x07#8, 0x0A#8, 0x15#8, 0x18#8, 0x1E#8, 0x29#8, 0x33#8, 0x55#8, 0x65#8]) ∨
    (op.extractLsb' 12 4 = 0xB#4 ∧ p = .nop)) ∧
  (∀ (op : Word) (s : State), ∃ t, exec (.nop op) s = .next t ∧ Frame [] s t) ∧
  ∀ (op : Word) (s : State), s.fault = false → s.pc.toNat ≤ 0xFFE → s.fetchInstr = .nop op →
    ∃ t, step s = .next t ∧ t.pc = s.pc + 2 ∧ t.dt.toNat = s.dt.toNat - 1 ∧ t.st.toNat = s.st.toNat - 1 ∧
      Frame [.pc, .dt, .st, .op, .history] s t

/-! ### Flow control (41_flow_control.md) -/

/-- R100: `JP NNN`. -/
def Obligations.JumpSetsPc : Prop :=
  Selects 0xF000 0x1000 (fun op => .jp (op.extractLsb' 0 12)) ∧
  ∀ (nnn : Imm12) (s : State), ∃ t, exec (.jp nnn) s = .next t ∧
    t.pc.toNat = nnn.toNat ∧ Frame [.pc] s t

/-- 41_flow_control.md, `CALL NNN` (decision D4 for the fault): it pushes the advanced `pc`, then increments, then
jumps; at `sp = 16` it faults. -/
def Obligations.CallPushesThenJumps : Prop :=
  Selects 0xF000 0x2000 (fun op => .call (op.extractLsb' 0 12)) ∧
  ∀ (nnn : Imm12) (s : State),
    (s.sp.val < 16 → ∃ t, exec (.call nnn) s = .next t ∧
      t.stackAt s.sp.val = s.pc ∧ (∀ k, k ≠ s.sp.val → t.stackAt k = s.stackAt k) ∧
      t.sp.val = s.sp.val + 1 ∧ t.pc.toNat = nnn.toNat ∧ Frame [.pc, .stack, .sp] s t) ∧
    (s.sp.val = 16 → ∃ t, exec (.call nnn) s = .next t ∧ AnnulledWith 2 (s.pc - 2) s t)

/-- 41_flow_control.md, `RET` (decision D4 for the fault): it decrements, then pops into `pc`, the entry keeping its
value; at `sp = 0` it faults. That every word `0mmE` is `RET`, not `00EE` alone, is decision D30 (log 15). -/
def Obligations.ReturnPopsIntoPc : Prop :=
  Selects 0xF00F 0x000E (fun op => .ret (op.extractLsb' 4 8)) ∧
  ∀ (mid : Byte) (s : State),
    (0 < s.sp.val → ∃ t, exec (.ret mid) s = .next t ∧
      t.sp.val = s.sp.val - 1 ∧ t.pc = s.stackAt (s.sp.val - 1) ∧ Frame [.pc, .sp] s t) ∧
    (s.sp.val = 0 → ∃ t, exec (.ret mid) s = .next t ∧ AnnulledWith 3 (s.pc - 2) s t)

/-- R103, R104: `SE Vx, NN` and `SNE Vx, NN`. -/
def Obligations.SkipOnByteComparison : Prop :=
  Selects 0xF000 0x3000 (fun op => .seImm (op.extractLsb' 8 4) (op.extractLsb' 0 8)) ∧
  Selects 0xF000 0x4000 (fun op => .sneImm (op.extractLsb' 8 4) (op.extractLsb' 0 8)) ∧
  ∀ (x : Nibble) (nn : Byte) (s : State),
    (∃ t, exec (.seImm x nn) s = .next t ∧
      (s.reg x = nn → t.pc = s.pc + 2) ∧ (s.reg x ≠ nn → t.pc = s.pc) ∧ Frame [.pc] s t) ∧
    (∃ t, exec (.sneImm x nn) s = .next t ∧
      (s.reg x ≠ nn → t.pc = s.pc + 2) ∧ (s.reg x = nn → t.pc = s.pc) ∧ Frame [.pc] s t)

/-- 41_flow_control.md, `SE Vx, Vy` and `SNE Vx, Vy`, whatever the low nibble. That every low nibble decodes alike is
derived in 30_encoding.md R71 and R76 and is the spec's decision D31 (log 15). -/
def Obligations.SkipOnRegisterComparison : Prop :=
  Selects 0xF000 0x5000 (fun op => .seReg (op.extractLsb' 8 4) (op.extractLsb' 4 4) (op.extractLsb' 0 4)) ∧
  Selects 0xF000 0x9000 (fun op => .sneReg (op.extractLsb' 8 4) (op.extractLsb' 4 4) (op.extractLsb' 0 4)) ∧
  ∀ (x y low : Nibble) (s : State),
    (∃ t, exec (.seReg x y low) s = .next t ∧
      (s.reg x = s.reg y → t.pc = s.pc + 2) ∧ (s.reg x ≠ s.reg y → t.pc = s.pc) ∧ Frame [.pc] s t) ∧
    (∃ t, exec (.sneReg x y low) s = .next t ∧
      (s.reg x ≠ s.reg y → t.pc = s.pc + 2) ∧ (s.reg x = s.reg y → t.pc = s.pc) ∧ Frame [.pc] s t)

/-- 41_flow_control.md, the words `BNNN` (decision D12) under both values of the parameter `P_BNNN`. -/
def Obligations.JumpWithOffsetByParameter : Prop :=
  (∀ op : Word, op &&& 0xF000 = 0xB000 → decodeWord .jpV0 op = .jpV0 (op.extractLsb' 0 12)) ∧
  (∀ op : Word, op &&& 0xF000 = 0xB000 → decodeWord .nop op = .nop op) ∧
  ∀ (nnn : Imm12) (s : State),
    (s.config.pBnnn = .jpV0 → ∃ t, exec (.jpV0 nnn) s = .next t ∧
      t.pc.toNat = nnn.toNat + (s.reg 0).toNat ∧ Frame [.pc] s t) ∧
    (s.config.pBnnn = .nop → ∃ t, exec (.jpV0 nnn) s = .next t ∧ Frame [] s t)

/-- 41_flow_control.md: a `CALL` and the `RET` it reaches bring `pc` to the instruction after the call and `sp` back.
-/
def Obligations.ReturnFollowsTheCallSite : Prop :=
  ∀ (nnn : Imm12) (mid : Byte) (s t : State),
    s.fault = false → s.pc.toNat ≤ 0xFFE → s.fetchInstr = .call nnn → s.sp.val < 16 → step s = .next t →
    t.pc.toNat ≤ 0xFFE → t.fetchInstr = .ret mid →
    ∃ u, step t = .next u ∧ u.pc = s.pc + 2 ∧ u.sp = s.sp ∧ u.fault = false

/-! ### Immediate, copy, logic, arithmetic, shifts (42_arithmetic_logic.md) -/

/-- R110: `LD Vx, NN`. -/
def Obligations.LoadImmediateSetsRegister : Prop :=
  Selects 0xF000 0x6000 (fun op => .ldImm (op.extractLsb' 8 4) (op.extractLsb' 0 8)) ∧
  ∀ (x : Nibble) (nn : Byte) (s : State), ∃ t, exec (.ldImm x nn) s = .next t ∧
    t.reg x = nn ∧ RegsExcept [x] s t ∧ Frame [.registers] s t

/-- R111: `ADD Vx, NN` wraps mod 256 and writes no flag. -/
def Obligations.AddImmediateWrapsWithoutFlag : Prop :=
  Selects 0xF000 0x7000 (fun op => .addImm (op.extractLsb' 8 4) (op.extractLsb' 0 8)) ∧
  ∀ (x : Nibble) (nn : Byte) (s : State), ∃ t, exec (.addImm x nn) s = .next t ∧
    (t.reg x).toNat = ((s.reg x).toNat + nn.toNat) % 256 ∧ RegsExcept [x] s t ∧ Frame [.registers] s t

/-- R112: `LD Vx, Vy`. -/
def Obligations.CopySetsRegister : Prop :=
  Selects 0xF00F 0x8000 (fun op => .ldReg (op.extractLsb' 8 4) (op.extractLsb' 4 4)) ∧
  ∀ (x y : Nibble) (s : State), ∃ t, exec (.ldReg x y) s = .next t ∧
    t.reg x = s.reg y ∧ RegsExcept [x] s t ∧ Frame [.registers] s t

/-- R113, R114, R115: `OR`, `AND`, `XOR`, bit by bit, with no flag. -/
def Obligations.LogicActsBitwiseWithoutFlag : Prop :=
  Selects 0xF00F 0x8001 (fun op => .orReg (op.extractLsb' 8 4) (op.extractLsb' 4 4)) ∧
  Selects 0xF00F 0x8002 (fun op => .andReg (op.extractLsb' 8 4) (op.extractLsb' 4 4)) ∧
  Selects 0xF00F 0x8003 (fun op => .xorReg (op.extractLsb' 8 4) (op.extractLsb' 4 4)) ∧
  ∀ (x y : Nibble) (s : State),
    (∃ t, exec (.orReg x y) s = .next t ∧
      (∀ k, (t.reg x).getLsbD k = ((s.reg x).getLsbD k || (s.reg y).getLsbD k)) ∧
      RegsExcept [x] s t ∧ Frame [.registers] s t) ∧
    (∃ t, exec (.andReg x y) s = .next t ∧
      (∀ k, (t.reg x).getLsbD k = ((s.reg x).getLsbD k && (s.reg y).getLsbD k)) ∧
      RegsExcept [x] s t ∧ Frame [.registers] s t) ∧
    (∃ t, exec (.xorReg x y) s = .next t ∧
      (∀ k, (t.reg x).getLsbD k = ((s.reg x).getLsbD k != (s.reg y).getLsbD k)) ∧
      RegsExcept [x] s t ∧ Frame [.registers] s t)

/-- 42_arithmetic_logic.md, `ADD Vx, Vy`, the sum mod 256 and the carry. The forms with `x = 15` or `y = 15` are R122
(a), the spec's decision D13 (log 16): both operands are the old values, and with `x = 15` the sum, written last, is
what `VF` ends with. -/
def Obligations.AddSetsCarryAndSum : Prop :=
  Selects 0xF00F 0x8004 (fun op => .addReg (op.extractLsb' 8 4) (op.extractLsb' 4 4)) ∧
  ∀ (x y : Nibble) (s : State), ∃ t, exec (.addReg x y) s = .next t ∧
    (t.reg x).toNat = ((s.reg x).toNat + (s.reg y).toNat) % 256 ∧
    (x ≠ 15 → t.reg 15 = if (s.reg x).toNat + (s.reg y).toNat > 255 then 1 else 0) ∧
    RegsExcept [x, 15] s t ∧ Frame [.registers] s t

/-- 42_arithmetic_logic.md, `SUB` and `SUBN` (which word is which order is general knowledge, G2): the difference mod
256 and the inverted borrow; with `x = 15` the difference is what `VF` ends with (decision D13). -/
def Obligations.SubtractSetsNoBorrowAndDifference : Prop :=
  Selects 0xF00F 0x8005 (fun op => .sub (op.extractLsb' 8 4) (op.extractLsb' 4 4)) ∧
  Selects 0xF00F 0x8007 (fun op => .subn (op.extractLsb' 8 4) (op.extractLsb' 4 4)) ∧
  ∀ (x y : Nibble) (s : State),
    (∃ t, exec (.sub x y) s = .next t ∧
      (t.reg x).toNat = ((s.reg x).toNat + 256 - (s.reg y).toNat) % 256 ∧
      (x ≠ 15 → t.reg 15 = if (s.reg x).toNat ≥ (s.reg y).toNat then 1 else 0) ∧
      RegsExcept [x, 15] s t ∧ Frame [.registers] s t) ∧
    (∃ t, exec (.subn x y) s = .next t ∧
      (t.reg x).toNat = ((s.reg y).toNat + 256 - (s.reg x).toNat) % 256 ∧
      (x ≠ 15 → t.reg 15 = if (s.reg y).toNat ≥ (s.reg x).toNat then 1 else 0) ∧
      RegsExcept [x, 15] s t ∧ Frame [.registers] s t)

/-- 42_arithmetic_logic.md, `SHR` and `SHL` by one, whatever `y`. The forms with `x = 15` are R122 (b), the spec's
decision D14 (log 16): the flag is written first and then shifted itself, so `SHR VF` ends 0 and `SHL VF` ends twice
the old bit 7. -/
def Obligations.ShiftsMoveOneBitIntoFlag : Prop :=
  Selects 0xF00F 0x8006 (fun op => .shr (op.extractLsb' 8 4) (op.extractLsb' 4 4)) ∧
  Selects 0xF00F 0x800E (fun op => .shl (op.extractLsb' 8 4) (op.extractLsb' 4 4)) ∧
  ∀ (x y : Nibble) (s : State),
    (∃ t, exec (.shr x y) s = .next t ∧
      (x ≠ 15 → (t.reg x).toNat = (s.reg x).toNat / 2 ∧ (t.reg 15).toNat = (s.reg x).toNat % 2) ∧
      (x = 15 → t.reg 15 = 0) ∧ RegsExcept [x, 15] s t ∧ Frame [.registers] s t) ∧
    (∃ t, exec (.shl x y) s = .next t ∧
      (x ≠ 15 → (t.reg x).toNat = 2 * (s.reg x).toNat % 256 ∧ (t.reg 15).toNat = (s.reg x).toNat / 128) ∧
      (x = 15 → (t.reg 15).toNat = 2 * ((s.reg 15).toNat / 128)) ∧ RegsExcept [x, 15] s t ∧ Frame [.registers] s t)

/-! ### Index register and random (43_index_random.md) -/

/-- R125: `LD I, NNN`. -/
def Obligations.LoadIndexImmediate : Prop :=
  Selects 0xF000 0xA000 (fun op => .ldI (op.extractLsb' 0 12)) ∧
  ∀ (nnn : Imm12) (s : State), ∃ t, exec (.ldI nnn) s = .next t ∧
    t.I.toNat = nnn.toNat ∧ Frame [.index] s t

/-- 43_index_random.md, `ADD I, Vx`: it wraps mod 65536 (decision D29, derived there from the width), with no flag and
no masking to 12 bits. -/
def Obligations.AddToIndexWrapsAtSixteenBits : Prop :=
  Selects 0xF0FF 0xF01E (fun op => .addI (op.extractLsb' 8 4)) ∧
  ∀ (x : Nibble) (s : State), ∃ t, exec (.addI x) s = .next t ∧
    t.I.toNat = (s.I.toNat + (s.reg x).toNat) % 65536 ∧ Frame [.index] s t

/-- 43_index_random.md, `LD F, Vx` under every `FONT_BASE`, the digit not masked (decision D17). -/
def Obligations.GlyphAddressIsNotMasked : Prop :=
  Selects 0xF0FF 0xF029 (fun op => .ldF (op.extractLsb' 8 4)) ∧
  ∀ (x : Nibble) (s : State), ∃ t, exec (.ldF x) s = .next t ∧
    t.I.toNat = s.config.fontBase.val + 5 * (s.reg x).toNat ∧ Frame [.index] s t

/-- `RND Vx, NN`: one sample of the random port, masked with `NN`, and nothing else. How the port holds its samples (a
byte the host lined up, else the free value of a counter) is the model's own choice, log 5; the statement holds for
every byte and every value of the counter. -/
def Obligations.RandomByteIsMasked : Prop :=
  Selects 0xF000 0xC000 (fun op => .rnd (op.extractLsb' 8 4) (op.extractLsb' 0 8)) ∧
  ∀ (x : Nibble) (nn : Byte) (s : State), ∃ (t : State) (r : Byte), exec (.rnd x nn) s = .next t ∧
    t.reg x = r &&& nn ∧
    (∀ b bs, s.draws = b :: bs → r = b ∧ t.draws = bs ∧ t.drawCount = s.drawCount) ∧
    (s.draws = [] → r = Config.randomByte s.drawCount ∧ t.draws = [] ∧ t.drawCount = s.drawCount + 1) ∧
    RegsExcept [x] s t ∧ Frame [.registers, .random] s t

/-! ### Display (44_display.md) -/

/-- 44_display.md, `CLS`: it clears all 2048 pixels and writes nothing else, not even `x[F]`. Only the word `00E0` is
the source's; that every word `0mm0` is `CLS` is derived in 30_encoding.md R77 and is the spec's decision D30 (log
15). -/
def Obligations.ClearScreenClearsEveryPixel : Prop :=
  Selects 0xF00F 0x0000 (fun op => .cls (op.extractLsb' 4 8)) ∧
  ∀ (mid : Byte) (s : State), ∃ t, exec (.cls mid) s = .next t ∧
    (∀ px py, px < 64 → py < 32 → t.pixel px py = false) ∧ Frame [.screen] s t

/-- 44_display.md, `DRW Vx, Vy, N` (decisions D5, D6, D15, D26, D33). Where every row fits, exactly the pixels under a
1 bit of the sprite are inverted and `x[F]` is 1 if and only if one of them was set; else the first row that does not
fit is reported: `MemRange` where its byte lies above `0xFFF`, `FbRange` where a 1 bit of it falls off the screen, and
nothing is drawn. -/
def Obligations.DrawInvertsTheSpritePixels : Prop :=
  Selects 0xF000 0xD000 (fun op => .drw (op.extractLsb' 8 4) (op.extractLsb' 4 4) (op.extractLsb' 0 4)) ∧
  ∀ (x y n : Nibble) (s : State),
    ((∀ row, row < n.toNat → SpriteRowFits s x y row) →
      ∃ t, exec (.drw x y n) s = .next t ∧
        (∀ px py, px < 64 → py < 32 →
          (SpriteCovers s x y n px py → t.pixel px py = !s.pixel px py) ∧
          (¬ SpriteCovers s x y n px py → t.pixel px py = s.pixel px py)) ∧
        ((∃ px py, SpriteCovers s x y n px py ∧ s.pixel px py = true) → t.reg 15 = 1) ∧
        ((¬ ∃ px py, SpriteCovers s x y n px py ∧ s.pixel px py = true) → t.reg 15 = 0) ∧
        RegsExcept [15] s t ∧ Frame [.registers, .screen] s t) ∧
    ∀ row, row < n.toNat → (∀ r, r < row → SpriteRowFits s x y r) → ¬ SpriteRowFits s x y row →
      (s.I.toNat + row > 0xFFF →
        ∃ t, exec (.drw x y n) s = .next t ∧ AnnulledWith 4 (BitVec.ofNat 16 (s.I.toNat + row)) s t) ∧
      (s.I.toNat + row ≤ 0xFFF →
        ∃ t, exec (.drw x y n) s = .next t ∧ AnnulledWith 5 (s.pc - 2) s t)

/-- The properties of R133. (a) Drawing the same sprite twice at the same place restores the framebuffer; (b) the
second draw reports a collision if and only if the first left a set pixel under the sprite; (c) a draw changes only
pixels under the sprite. For (a) and (b) the coordinate registers must not be `VF`, which the first draw rewrites.
Which pixels lie under the sprite is the spec's decision D26 (log 18), and for (c) with `VF` as a coordinate its
decision D15 (log 16). -/
def Obligations.DrawingTwiceRestoresTheScreen : Prop :=
  ∀ (x y n : Nibble) (s t : State), exec (.drw x y n) s = .next t →
    (∀ px py, t.pixel px py ≠ s.pixel px py → SpriteCovers s x y n px py) ∧
    (x ≠ 15 → y ≠ 15 → t.fault = false →
      ∃ u, exec (.drw x y n) t = .next u ∧ u.fb = s.fb ∧
        (u.reg 15 = 1 ↔ ∃ px py, SpriteCovers s x y n px py ∧ t.pixel px py = true))

/-! ### Keypad and timers (45_input_timers.md) -/

/-- 45_input_timers.md, `SKP` and `SKNP` by the key the whole byte names; above 15 they fault (decision D7). -/
def Obligations.SkipOnKeyState : Prop :=
  Selects 0xF00F 0xE00E (fun op => .skp (op.extractLsb' 8 4) (op.extractLsb' 4 4)) ∧
  Selects 0xF00F 0xE001 (fun op => .sknp (op.extractLsb' 8 4) (op.extractLsb' 4 4)) ∧
  ∀ (x mid : Nibble) (s : State),
    ((s.reg x).toNat ≤ 15 →
      (∃ t, exec (.skp x mid) s = .next t ∧
        (s.keys[(s.reg x).toNat]? = some true → t.pc = s.pc + 2) ∧
        (s.keys[(s.reg x).toNat]? = some false → t.pc = s.pc) ∧ Frame [.pc] s t) ∧
      (∃ t, exec (.sknp x mid) s = .next t ∧
        (s.keys[(s.reg x).toNat]? = some false → t.pc = s.pc + 2) ∧
        (s.keys[(s.reg x).toNat]? = some true → t.pc = s.pc) ∧ Frame [.pc] s t)) ∧
    ((s.reg x).toNat > 15 →
      (∃ t, exec (.skp x mid) s = .next t ∧ AnnulledWith 6 ((s.reg x).setWidth 16) s t) ∧
      (∃ t, exec (.sknp x mid) s = .next t ∧ AnnulledWith 6 ((s.reg x).setWidth 16) s t))

/-- 45_input_timers.md, `LD Vx, K`: it stores the least pressed key (decision D18, log 20), or rewinds `pc` by 2 where
none is pressed. -/
def Obligations.WaitForKeyTakesTheLeastKey : Prop :=
  Selects 0xF0FF 0xF00A (fun op => .ldVxK (op.extractLsb' 8 4)) ∧
  ∀ (x : Nibble) (s : State),
    (∀ k, k < 16 → s.keys[k]? = some true → (∀ j, j < k → s.keys[j]? = some false) →
      ∃ t, exec (.ldVxK x) s = .next t ∧ (t.reg x).toNat = k ∧ RegsExcept [x] s t ∧ Frame [.registers] s t) ∧
    ((∀ k, k < 16 → s.keys[k]? = some false) →
      ∃ t, exec (.ldVxK x) s = .next t ∧ t.pc = s.pc - 2 ∧ Frame [.pc] s t)

/-- 45_input_timers.md: with no key pressed over `n` steps the key wait leaves `pc` and every register unchanged and
takes one tick of each timer a step. -/
def Obligations.KeyWaitTicksAndStays : Prop :=
  ∀ (x : Nibble) (n : Nat) (s : State),
    s.fault = false → s.pc.toNat ≤ 0xFFE → s.fetchInstr = .ldVxK x → (∀ k, k < 16 → s.keys[k]? = some false) →
    ∃ t, Host.Core.run Sys2Proof.core n s = .next t ∧ t.pc = s.pc ∧
      t.dt.toNat = s.dt.toNat - n ∧ t.st.toNat = s.st.toNat - n ∧ Frame [.dt, .st, .op, .history] s t

/-- R138: `LD Vx, DT` reads the timer before the tick of its own step. -/
def Obligations.ReadDelayTimerBeforeTick : Prop :=
  Selects 0xF0FF 0xF007 (fun op => .ldVxDt (op.extractLsb' 8 4)) ∧
  (∀ (x : Nibble) (s : State), ∃ t, exec (.ldVxDt x) s = .next t ∧
    t.reg x = s.dt ∧ RegsExcept [x] s t ∧ Frame [.registers] s t) ∧
  ∀ (x : Nibble) (s : State), s.fault = false → s.pc.toNat ≤ 0xFFE → s.fetchInstr = .ldVxDt x →
    ∃ t, step s = .next t ∧ t.reg x = s.dt ∧ t.dt.toNat = s.dt.toNat - 1

/-- 45_input_timers.md, `LD DT, Vx` and `LD ST, Vx`; the tick of the same step then takes one off the value written.
-/
def Obligations.WriteTimersThenTick : Prop :=
  Selects 0xF0FF 0xF015 (fun op => .ldDtVx (op.extractLsb' 8 4)) ∧
  Selects 0xF0FF 0xF018 (fun op => .ldStVx (op.extractLsb' 8 4)) ∧
  (∀ (x : Nibble) (s : State),
    (∃ t, exec (.ldDtVx x) s = .next t ∧ t.dt = s.reg x ∧ Frame [.dt] s t) ∧
    (∃ t, exec (.ldStVx x) s = .next t ∧ t.st = s.reg x ∧ Frame [.st] s t)) ∧
  ∀ (x : Nibble) (s : State), s.fault = false → s.pc.toNat ≤ 0xFFE →
    (s.fetchInstr = .ldDtVx x → ∃ t, step s = .next t ∧ t.dt.toNat = (s.reg x).toNat - 1) ∧
    (s.fetchInstr = .ldStVx x → ∃ t, step s = .next t ∧ t.st.toNat = (s.reg x).toNat - 1)

/-! ### Memory block transfer (46_memory_transfer.md) -/

/-- 46_memory_transfer.md, `LD B, Vx`: it stores the three decimal digits at `I`, `I + 1`, `I + 2`, and leaves `I`
(decision D16); above `0xFFD` it faults and stores nothing (decision D5). -/
def Obligations.BcdStoresThreeDigits : Prop :=
  Selects 0xF0FF 0xF033 (fun op => .ldB (op.extractLsb' 8 4)) ∧
  ∀ (x : Nibble) (s : State), Memory.wf s.config s.mem = true →
    (s.I.toNat ≤ 0xFFD → ∃ t, exec (.ldB x) s = .next t ∧
      (t.byteAt (s.effAddr 0)).toNat = (s.reg x).toNat / 100 ∧
      (t.byteAt (s.effAddr 1)).toNat = (s.reg x).toNat / 10 % 10 ∧
      (t.byteAt (s.effAddr 2)).toNat = (s.reg x).toNat % 10 ∧
      MemExcept (s.effAddr 0) 3 s t ∧ Frame [.memory] s t) ∧
    (s.I.toNat > 0xFFD → ∃ t, exec (.ldB x) s = .next t ∧
      AnnulledWith 4 (BitVec.ofNat 16 (max s.I.toNat 0x1000)) s t)

/-- 46_memory_transfer.md, `LD [I], Vx`: it stores `V0` to `Vx` at `I` and up, and leaves `I` (decision D16); where
the last address lies above `0xFFF` it faults and stores nothing (decision D5). -/
def Obligations.DumpStoresRegisters : Prop :=
  Selects 0xF0FF 0xF055 (fun op => .storeRegs (op.extractLsb' 8 4)) ∧
  ∀ (x : Nibble) (s : State), Memory.wf s.config s.mem = true →
    (s.I.toNat + x.toNat ≤ 0xFFF → ∃ t, exec (.storeRegs x) s = .next t ∧
      (∀ r : Nibble, r.toNat ≤ x.toNat → t.byteAt (s.effAddr r.toNat) = s.reg r) ∧
      MemExcept (s.effAddr 0) (x.toNat + 1) s t ∧ Frame [.memory] s t) ∧
    (s.I.toNat + x.toNat > 0xFFF → ∃ t, exec (.storeRegs x) s = .next t ∧
      AnnulledWith 4 (BitVec.ofNat 16 (max s.I.toNat 0x1000)) s t)

/-- 46_memory_transfer.md, `LD Vx, [I]`: it loads `V0` to `Vx` from `I` and up, and leaves `I` (decision D16); where
the last address lies above `0xFFF` it faults and loads nothing (decision D5). -/
def Obligations.LoadReadsRegisters : Prop :=
  Selects 0xF0FF 0xF065 (fun op => .loadRegs (op.extractLsb' 8 4)) ∧
  ∀ (x : Nibble) (s : State),
    (s.I.toNat + x.toNat ≤ 0xFFF → ∃ t, exec (.loadRegs x) s = .next t ∧
      (∀ r : Nibble, r.toNat ≤ x.toNat → t.reg r = s.byteAt (s.effAddr r.toNat)) ∧
      (∀ r : Nibble, x.toNat < r.toNat → t.reg r = s.reg r) ∧ Frame [.registers] s t) ∧
    (s.I.toNat + x.toNat > 0xFFF → ∃ t, exec (.loadRegs x) s = .next t ∧
      AnnulledWith 4 (BitVec.ofNat 16 (max s.I.toNat 0x1000)) s t)

/-- 46_memory_transfer.md: a dump and later a load with the same `I` and `x`, memory not written in between, restore
`V0` to `Vx` byte for byte, whatever was done to the registers meanwhile. -/
def Obligations.DumpThenLoadRestoresRegisters : Prop :=
  ∀ (x : Nibble) (s t u : State), Memory.wf s.config s.mem = true → s.I.toNat + x.toNat ≤ 0xFFF →
    exec (.storeRegs x) s = .next t → u.I = s.I → (∀ a, u.byteAt a = t.byteAt a) →
    ∃ v, exec (.loadRegs x) u = .next v ∧ ∀ r : Nibble, r.toNat ≤ x.toNat → v.reg r = s.reg r

/-! ### Memory (20_memory.md) -/

/-- 20_memory.md section 2, `MemRead` and `MemWrite` (decision D5; the canonical form is the model's own, log 14). In
range a write changes the one byte and nothing else and keeps the canonical form; above `0xFFF` both raise `MemRange`
and the address is never reduced. -/
def Obligations.MemoryPrimitivesCheckTheRange : Prop :=
  ∀ (s : State) (a : Nat) (v : Byte), Memory.wf s.config s.mem = true →
    (a ≤ 0xFFF → s.memRead a = .ok (s.byteAt a) ∧
      ∃ t, s.memWrite a v = .ok t ∧ t.byteAt a = v ∧ (∀ b, b ≠ a → t.byteAt b = s.byteAt b) ∧
        Memory.wf t.config t.mem = true ∧ Frame [.memory] s t) ∧
    (a > 0xFFF → s.memRead a = .error (.memRange a) ∧ s.memWrite a v = .error (.memRange a))

/-- The canonical form of memory (log 14, the model's choice): two memories in it that read the same are the same. -/
def Obligations.EqualReadsMeanEqualMemory : Prop :=
  ∀ (c : Config) (m₁ m₂ : Memory), Memory.wf c m₁ = true → Memory.wf c m₂ = true →
    (∀ a, Memory.get c m₁ a = Memory.get c m₂ a) → m₁ = m₂

/-- 20_memory.md section 10 (derived there): a store is seen by the next fetch from its address or from the one
before. -/
def Obligations.StoresAreSeenByTheNextFetch : Prop :=
  ∀ (s : State) (a : Nat) (v : Byte), Memory.wf s.config s.mem = true → a ≤ 0xFFF →
    ∃ t, s.memWrite a v = .ok t ∧
      (s.pc.toNat = a → t.fetchWord = v ++ s.byteAt (a + 1)) ∧
      (s.pc.toNat + 1 = a → t.fetchWord = s.byteAt s.pc.toNat ++ v)

/-! ### Rules of the whole machine (10_state.md) -/

/-- 20_memory.md section 1: of the instructions only `LD B, Vx` and `LD [I], Vx` write memory. -/
def Obligations.OnlyBcdAndDumpWriteMemory : Prop :=
  ∀ (i : Instr) (s t : State), exec i s = .next t → (∃ a, t.byteAt a ≠ s.byteAt a) →
    (∃ x, i = .ldB x) ∨ ∃ x, i = .storeRegs x

/-- 10_state.md section 7: only `CALL` and `RET` change `sp`, only `CALL` the stack. -/
def Obligations.OnlyCallAndReturnMoveTheStack : Prop :=
  ∀ (i : Instr) (s t : State), exec i s = .next t →
    (t.sp ≠ s.sp → (∃ nnn, i = .call nnn) ∨ ∃ mid, i = .ret mid) ∧
    (t.stack ≠ s.stack → ∃ nnn, i = .call nnn)

/-- 10_state.md section 10, as 90_conflicts.md C3 corrects it: only `DRW` and `CLS` change the framebuffer. -/
def Obligations.OnlyDrawAndClearChangeTheScreen : Prop :=
  ∀ (i : Instr) (s t : State), exec i s = .next t → t.fb ≠ s.fb →
    (∃ mid, i = .cls mid) ∨ ∃ x y n, i = .drw x y n

/-- 10_state.md section 4 and decision D16: only `LD I, NNN`, `ADD I, Vx` and `LD F, Vx` change `I`. -/
def Obligations.OnlyIndexInstructionsChangeTheIndex : Prop :=
  ∀ (i : Instr) (s t : State), exec i s = .next t → t.I ≠ s.I →
    (∃ nnn, i = .ldI nnn) ∨ (∃ x, i = .addI x) ∨ ∃ x, i = .ldF x

/-- 10_state.md section 3 (decisions D11, D13 to D15): `x[F]` changes as a side effect only in the six instructions
listed there, and there it ends 0 or 1 unless it is also the destination; in any other instruction it changes only as
the named destination. -/
def Obligations.OnlyFlagWritersChangeTheFlag : Prop :=
  ∀ (i : Instr) (s t : State), exec i s = .next t → t.reg 15 ≠ s.reg 15 →
    (((∃ x y, i = .addReg x y ∧ x ≠ 15) ∨ (∃ x y, i = .sub x y ∧ x ≠ 15) ∨ (∃ x y, i = .subn x y ∧ x ≠ 15) ∨
        (∃ x y, i = .shr x y ∧ x ≠ 15) ∨ (∃ x y, i = .shl x y ∧ x ≠ 15) ∨ ∃ x y n, i = .drw x y n) ∧
      (t.reg 15 = 0 ∨ t.reg 15 = 1)) ∨
    (∃ y nn, i = .ldImm 15 nn ∨ i = .addImm 15 nn ∨ i = .ldReg 15 y ∨ i = .orReg 15 y ∨ i = .andReg 15 y ∨
      i = .xorReg 15 y ∨ i = .addReg 15 y ∨ i = .sub 15 y ∨ i = .subn 15 y ∨ i = .shr 15 y ∨ i = .shl 15 y ∨
      i = .rnd 15 nn ∨ i = .ldVxDt 15 ∨ i = .ldVxK 15 ∨ i = .loadRegs 15)

/-- 10_state.md sections 9 and 13, 60_exceptions.md section 9 (the port's fields are the model's own, log 4, 5): no
instruction writes the keypad or the parameters, and only `RND` samples the random port. -/
def Obligations.InputsAndParametersAreNotWritten : Prop :=
  ∀ (i : Instr) (s t : State), exec i s = .next t →
    t.keys = s.keys ∧ t.config = s.config ∧
    ((t.draws ≠ s.draws ∨ t.drawCount ≠ s.drawCount) → ∃ x nn, i = .rnd x nn)

/-- 60_exceptions.md section 9, the keypad port: an instruction other than `SKP`, `SKNP` and `LD Vx, K` learns nothing
of the keypad. -/
def Obligations.KeypadReachesOnlyKeyInstructions : Prop :=
  ∀ (i : Instr) (ks : Vector Bool 16) (s t : State),
    (∀ x mid, i ≠ .skp x mid) → (∀ x mid, i ≠ .sknp x mid) → (∀ x, i ≠ .ldVxK x) →
    exec i s = .next t → exec i (s.setKeys ks) = .next (t.setKeys ks)

/-- Every step keeps the invariant `State.Inv` of Safety.lean (10_state.md sections 6, 12, 13 and 15; log 14), from
every state that meets it, reachable or not. -/
def Obligations.StepKeepsInvariant : Prop :=
  ∀ s t : State, s.Inv → step s = .next t → t.Inv

/-- The state after reset meets the invariant, under every value of the parameters. -/
def Obligations.ResetMeetsInvariant : Prop :=
  ∀ c : Config, (State.resetWith c).Inv

/-- Every state a host that keeps the protocol of R165 can reach meets the invariant (10_state.md section 15); in
particular `pc` is at most `0x10FE`, so that `pc + 2` never overflows. That `new()` may be applied again is the spec's
decision D19, what it then keeps is log 22; that there is no late or repeated `load` is its decision D34 (log 13). -/
def Obligations.ReachableStatesMeetInvariant : Prop :=
  ∀ (ph : Phase) (s : State), Reachable ph s → s.Inv

/-! ### Reset, load, ports (60_exceptions.md, 70_reset_and_hazards.md) -/

/-- 10_state.md section 14 (the values of `I`, the screen, the latches and the log, and that `new()` may be applied
again, are decision D19; log 6, 22): the state after `new()`, under every value of the parameters, and after `new()`
applied again in any state. Nothing is said of the inputs, which the core does not reset. -/
def Obligations.ResetLeavesTheStatedValues : Prop :=
  ∀ (c : Config) (s : State), s = State.resetWith c ∨ (∃ s' : State, s = s'.renew ∧ c = s'.config) →
    (∀ k, k < 80 → ∃ v, c.font[k]? = some v ∧ s.byteAt (c.fontBase.val + k) = v) ∧
    (∀ a, a < c.fontBase.val ∨ c.fontBase.val + 80 ≤ a → s.byteAt a = 0) ∧
    (∀ r, s.reg r = 0) ∧ s.I = 0 ∧ s.pc = 0x200 ∧ (∀ k, s.stackAt k = 0) ∧ s.sp = 0 ∧ s.dt = 0 ∧ s.st = 0 ∧
    (∀ px py, s.pixel px py = false) ∧ s.op = 0 ∧ s.history = [] ∧
    s.fault = false ∧ s.cause = 0 ∧ s.finfo = 0 ∧ s.config = c

/-- 70_reset_and_hazards.md section 2: `load` copies up to 3584 bytes verbatim to `0x200` and up and changes nothing
else; more are refused whole with `LoadRange` (decision D8). -/
def Obligations.LoadCopiesOrRefusesWhole : Prop :=
  ∀ (s : State) (bytes : List Byte), s.fault = false → Memory.wf s.config s.mem = true →
    (bytes.length ≤ 3584 →
      (∀ k v, bytes[k]? = some v → (s.load bytes).byteAt (0x200 + k) = v) ∧
      MemExcept 0x200 bytes.length s (s.load bytes) ∧ Frame [.memory] s (s.load bytes)) ∧
    (bytes.length > 3584 →
      (s.load bytes).fault = true ∧ (s.load bytes).cause = 7 ∧
      (s.load bytes).finfo = BitVec.ofNat 16 (min bytes.length 0xFFFF) ∧ Frame [.latches] s (s.load bytes))

/-- 70_reset_and_hazards.md section 2 (derived there; decisions D3, D30): with no program loaded the core runs 1792
`CLS` from `0x200` to `0xFFE`, and the next step faults. -/
def Obligations.EmptyMemoryRunsClearScreen : Prop :=
  ∀ c : Config,
    (∀ n, n ≤ 1792 → ∃ t, Host.Core.run Sys2Proof.core n (State.resetWith c) = .next t ∧
      t.pc.toNat = 0x200 + 2 * n ∧ t.fault = false ∧ ∀ px py, t.pixel px py = false) ∧
    ∃ t, Host.Core.run Sys2Proof.core 1793 (State.resetWith c) = .next t ∧
      t.pc = 0x1000 ∧ t.fault = true ∧ t.cause = 1 ∧ t.finfo = 0x1000

/-- The exported framebuffer, row by row (decision D26), and the sound output (60_exceptions.md section 9). -/
def Obligations.PortsShowScreenAndSound : Prop :=
  ∀ s : State,
    s.framebuffer.length = 2048 ∧
    (∀ px py, px < 64 → py < 32 →
      (s.pixel px py = true → s.framebuffer[py * 64 + px]? = some 0xFFFFFFFF#32) ∧
      (s.pixel px py = false → s.framebuffer[py * 64 + px]? = some 0#32)) ∧
    (s.soundActive = true ↔ s.st.toNat ≠ 0)
end

