-- ==== Sys2Proof/Laws/State.lean ====
section
/-! SUPPORT. One lemma for each field and each update of the state, and for each accessor and each update it does not
see, all true by `rfl`, so that no later proof unfolds a record update. -/

namespace Sys2Proof.Machine

variable (s : State)

/-! ### setReg -/

@[simp] theorem State.setReg_mem (i : Nibble) (v : Byte) : (s.setReg i v).mem = s.mem := rfl
@[simp] theorem State.setReg_regs (i : Nibble) (v : Byte) : (s.setReg i v).regs = s.regs.set i.toNat v i.isLt := rfl
@[simp] theorem State.setReg_I (i : Nibble) (v : Byte) : (s.setReg i v).I = s.I := rfl
@[simp] theorem State.setReg_pc (i : Nibble) (v : Byte) : (s.setReg i v).pc = s.pc := rfl
@[simp] theorem State.setReg_stack (i : Nibble) (v : Byte) : (s.setReg i v).stack = s.stack := rfl
@[simp] theorem State.setReg_sp (i : Nibble) (v : Byte) : (s.setReg i v).sp = s.sp := rfl
@[simp] theorem State.setReg_dt (i : Nibble) (v : Byte) : (s.setReg i v).dt = s.dt := rfl
@[simp] theorem State.setReg_st (i : Nibble) (v : Byte) : (s.setReg i v).st = s.st := rfl
@[simp] theorem State.setReg_fb (i : Nibble) (v : Byte) : (s.setReg i v).fb = s.fb := rfl
@[simp] theorem State.setReg_fault (i : Nibble) (v : Byte) : (s.setReg i v).fault = s.fault := rfl
@[simp] theorem State.setReg_cause (i : Nibble) (v : Byte) : (s.setReg i v).cause = s.cause := rfl
@[simp] theorem State.setReg_finfo (i : Nibble) (v : Byte) : (s.setReg i v).finfo = s.finfo := rfl
@[simp] theorem State.setReg_op (i : Nibble) (v : Byte) : (s.setReg i v).op = s.op := rfl
@[simp] theorem State.setReg_history (i : Nibble) (v : Byte) : (s.setReg i v).history = s.history := rfl
@[simp] theorem State.setReg_keys (i : Nibble) (v : Byte) : (s.setReg i v).keys = s.keys := rfl
@[simp] theorem State.setReg_draws (i : Nibble) (v : Byte) : (s.setReg i v).draws = s.draws := rfl
@[simp] theorem State.setReg_drawCount (i : Nibble) (v : Byte) : (s.setReg i v).drawCount = s.drawCount := rfl
@[simp] theorem State.setReg_config (i : Nibble) (v : Byte) : (s.setReg i v).config = s.config := rfl
@[simp] theorem State.setReg_byteAt (i : Nibble) (v : Byte) (b : Nat) : (s.setReg i v).byteAt b = s.byteAt b := rfl
@[simp] theorem State.setReg_stackAt (i : Nibble) (v : Byte) (k : Nat) : (s.setReg i v).stackAt k = s.stackAt k := rfl
@[simp] theorem State.setReg_pixel (i : Nibble) (v : Byte) (px py : Nat) : (s.setReg i v).pixel px py = s.pixel px py := rfl
@[simp] theorem State.setReg_keyDown (i : Nibble) (v : Byte) (k : Nat) : (s.setReg i v).keyDown k = s.keyDown k := rfl
@[simp] theorem State.setReg_effAddr (i : Nibble) (v : Byte) (k : Nat) : (s.setReg i v).effAddr k = s.effAddr k := rfl

/-! ### setI -/

@[simp] theorem State.setI_mem (v : Word) : (s.setI v).mem = s.mem := rfl
@[simp] theorem State.setI_regs (v : Word) : (s.setI v).regs = s.regs := rfl
@[simp] theorem State.setI_I (v : Word) : (s.setI v).I = v := rfl
@[simp] theorem State.setI_pc (v : Word) : (s.setI v).pc = s.pc := rfl
@[simp] theorem State.setI_stack (v : Word) : (s.setI v).stack = s.stack := rfl
@[simp] theorem State.setI_sp (v : Word) : (s.setI v).sp = s.sp := rfl
@[simp] theorem State.setI_dt (v : Word) : (s.setI v).dt = s.dt := rfl
@[simp] theorem State.setI_st (v : Word) : (s.setI v).st = s.st := rfl
@[simp] theorem State.setI_fb (v : Word) : (s.setI v).fb = s.fb := rfl
@[simp] theorem State.setI_fault (v : Word) : (s.setI v).fault = s.fault := rfl
@[simp] theorem State.setI_cause (v : Word) : (s.setI v).cause = s.cause := rfl
@[simp] theorem State.setI_finfo (v : Word) : (s.setI v).finfo = s.finfo := rfl
@[simp] theorem State.setI_op (v : Word) : (s.setI v).op = s.op := rfl
@[simp] theorem State.setI_history (v : Word) : (s.setI v).history = s.history := rfl
@[simp] theorem State.setI_keys (v : Word) : (s.setI v).keys = s.keys := rfl
@[simp] theorem State.setI_draws (v : Word) : (s.setI v).draws = s.draws := rfl
@[simp] theorem State.setI_drawCount (v : Word) : (s.setI v).drawCount = s.drawCount := rfl
@[simp] theorem State.setI_config (v : Word) : (s.setI v).config = s.config := rfl
@[simp] theorem State.setI_reg (v : Word) (r : Nibble) : (s.setI v).reg r = s.reg r := rfl
@[simp] theorem State.setI_byteAt (v : Word) (b : Nat) : (s.setI v).byteAt b = s.byteAt b := rfl
@[simp] theorem State.setI_stackAt (v : Word) (k : Nat) : (s.setI v).stackAt k = s.stackAt k := rfl
@[simp] theorem State.setI_pixel (v : Word) (px py : Nat) : (s.setI v).pixel px py = s.pixel px py := rfl
@[simp] theorem State.setI_keyDown (v : Word) (k : Nat) : (s.setI v).keyDown k = s.keyDown k := rfl

/-! ### setPc -/

@[simp] theorem State.setPc_mem (v : Word) : (s.setPc v).mem = s.mem := rfl
@[simp] theorem State.setPc_regs (v : Word) : (s.setPc v).regs = s.regs := rfl
@[simp] theorem State.setPc_I (v : Word) : (s.setPc v).I = s.I := rfl
@[simp] theorem State.setPc_pc (v : Word) : (s.setPc v).pc = v := rfl
@[simp] theorem State.setPc_stack (v : Word) : (s.setPc v).stack = s.stack := rfl
@[simp] theorem State.setPc_sp (v : Word) : (s.setPc v).sp = s.sp := rfl
@[simp] theorem State.setPc_dt (v : Word) : (s.setPc v).dt = s.dt := rfl
@[simp] theorem State.setPc_st (v : Word) : (s.setPc v).st = s.st := rfl
@[simp] theorem State.setPc_fb (v : Word) : (s.setPc v).fb = s.fb := rfl
@[simp] theorem State.setPc_fault (v : Word) : (s.setPc v).fault = s.fault := rfl
@[simp] theorem State.setPc_cause (v : Word) : (s.setPc v).cause = s.cause := rfl
@[simp] theorem State.setPc_finfo (v : Word) : (s.setPc v).finfo = s.finfo := rfl
@[simp] theorem State.setPc_op (v : Word) : (s.setPc v).op = s.op := rfl
@[simp] theorem State.setPc_history (v : Word) : (s.setPc v).history = s.history := rfl
@[simp] theorem State.setPc_keys (v : Word) : (s.setPc v).keys = s.keys := rfl
@[simp] theorem State.setPc_draws (v : Word) : (s.setPc v).draws = s.draws := rfl
@[simp] theorem State.setPc_drawCount (v : Word) : (s.setPc v).drawCount = s.drawCount := rfl
@[simp] theorem State.setPc_config (v : Word) : (s.setPc v).config = s.config := rfl
@[simp] theorem State.setPc_reg (v : Word) (r : Nibble) : (s.setPc v).reg r = s.reg r := rfl
@[simp] theorem State.setPc_byteAt (v : Word) (b : Nat) : (s.setPc v).byteAt b = s.byteAt b := rfl
@[simp] theorem State.setPc_stackAt (v : Word) (k : Nat) : (s.setPc v).stackAt k = s.stackAt k := rfl
@[simp] theorem State.setPc_pixel (v : Word) (px py : Nat) : (s.setPc v).pixel px py = s.pixel px py := rfl
@[simp] theorem State.setPc_keyDown (v : Word) (k : Nat) : (s.setPc v).keyDown k = s.keyDown k := rfl
@[simp] theorem State.setPc_effAddr (v : Word) (k : Nat) : (s.setPc v).effAddr k = s.effAddr k := rfl

/-! ### setDt -/

@[simp] theorem State.setDt_mem (v : Byte) : (s.setDt v).mem = s.mem := rfl
@[simp] theorem State.setDt_regs (v : Byte) : (s.setDt v).regs = s.regs := rfl
@[simp] theorem State.setDt_I (v : Byte) : (s.setDt v).I = s.I := rfl
@[simp] theorem State.setDt_pc (v : Byte) : (s.setDt v).pc = s.pc := rfl
@[simp] theorem State.setDt_stack (v : Byte) : (s.setDt v).stack = s.stack := rfl
@[simp] theorem State.setDt_sp (v : Byte) : (s.setDt v).sp = s.sp := rfl
@[simp] theorem State.setDt_dt (v : Byte) : (s.setDt v).dt = v := rfl
@[simp] theorem State.setDt_st (v : Byte) : (s.setDt v).st = s.st := rfl
@[simp] theorem State.setDt_fb (v : Byte) : (s.setDt v).fb = s.fb := rfl
@[simp] theorem State.setDt_fault (v : Byte) : (s.setDt v).fault = s.fault := rfl
@[simp] theorem State.setDt_cause (v : Byte) : (s.setDt v).cause = s.cause := rfl
@[simp] theorem State.setDt_finfo (v : Byte) : (s.setDt v).finfo = s.finfo := rfl
@[simp] theorem State.setDt_op (v : Byte) : (s.setDt v).op = s.op := rfl
@[simp] theorem State.setDt_history (v : Byte) : (s.setDt v).history = s.history := rfl
@[simp] theorem State.setDt_keys (v : Byte) : (s.setDt v).keys = s.keys := rfl
@[simp] theorem State.setDt_draws (v : Byte) : (s.setDt v).draws = s.draws := rfl
@[simp] theorem State.setDt_drawCount (v : Byte) : (s.setDt v).drawCount = s.drawCount := rfl
@[simp] theorem State.setDt_config (v : Byte) : (s.setDt v).config = s.config := rfl
@[simp] theorem State.setDt_reg (v : Byte) (r : Nibble) : (s.setDt v).reg r = s.reg r := rfl
@[simp] theorem State.setDt_byteAt (v : Byte) (b : Nat) : (s.setDt v).byteAt b = s.byteAt b := rfl
@[simp] theorem State.setDt_stackAt (v : Byte) (k : Nat) : (s.setDt v).stackAt k = s.stackAt k := rfl
@[simp] theorem State.setDt_pixel (v : Byte) (px py : Nat) : (s.setDt v).pixel px py = s.pixel px py := rfl
@[simp] theorem State.setDt_keyDown (v : Byte) (k : Nat) : (s.setDt v).keyDown k = s.keyDown k := rfl
@[simp] theorem State.setDt_effAddr (v : Byte) (k : Nat) : (s.setDt v).effAddr k = s.effAddr k := rfl

/-! ### setSt -/

@[simp] theorem State.setSt_mem (v : Byte) : (s.setSt v).mem = s.mem := rfl
@[simp] theorem State.setSt_regs (v : Byte) : (s.setSt v).regs = s.regs := rfl
@[simp] theorem State.setSt_I (v : Byte) : (s.setSt v).I = s.I := rfl
@[simp] theorem State.setSt_pc (v : Byte) : (s.setSt v).pc = s.pc := rfl
@[simp] theorem State.setSt_stack (v : Byte) : (s.setSt v).stack = s.stack := rfl
@[simp] theorem State.setSt_sp (v : Byte) : (s.setSt v).sp = s.sp := rfl
@[simp] theorem State.setSt_dt (v : Byte) : (s.setSt v).dt = s.dt := rfl
@[simp] theorem State.setSt_st (v : Byte) : (s.setSt v).st = v := rfl
@[simp] theorem State.setSt_fb (v : Byte) : (s.setSt v).fb = s.fb := rfl
@[simp] theorem State.setSt_fault (v : Byte) : (s.setSt v).fault = s.fault := rfl
@[simp] theorem State.setSt_cause (v : Byte) : (s.setSt v).cause = s.cause := rfl
@[simp] theorem State.setSt_finfo (v : Byte) : (s.setSt v).finfo = s.finfo := rfl
@[simp] theorem State.setSt_op (v : Byte) : (s.setSt v).op = s.op := rfl
@[simp] theorem State.setSt_history (v : Byte) : (s.setSt v).history = s.history := rfl
@[simp] theorem State.setSt_keys (v : Byte) : (s.setSt v).keys = s.keys := rfl
@[simp] theorem State.setSt_draws (v : Byte) : (s.setSt v).draws = s.draws := rfl
@[simp] theorem State.setSt_drawCount (v : Byte) : (s.setSt v).drawCount = s.drawCount := rfl
@[simp] theorem State.setSt_config (v : Byte) : (s.setSt v).config = s.config := rfl
@[simp] theorem State.setSt_reg (v : Byte) (r : Nibble) : (s.setSt v).reg r = s.reg r := rfl
@[simp] theorem State.setSt_byteAt (v : Byte) (b : Nat) : (s.setSt v).byteAt b = s.byteAt b := rfl
@[simp] theorem State.setSt_stackAt (v : Byte) (k : Nat) : (s.setSt v).stackAt k = s.stackAt k := rfl
@[simp] theorem State.setSt_pixel (v : Byte) (px py : Nat) : (s.setSt v).pixel px py = s.pixel px py := rfl
@[simp] theorem State.setSt_keyDown (v : Byte) (k : Nat) : (s.setSt v).keyDown k = s.keyDown k := rfl
@[simp] theorem State.setSt_effAddr (v : Byte) (k : Nat) : (s.setSt v).effAddr k = s.effAddr k := rfl

/-! ### setFb -/

@[simp] theorem State.setFb_mem (f : Framebuffer) : (s.setFb f).mem = s.mem := rfl
@[simp] theorem State.setFb_regs (f : Framebuffer) : (s.setFb f).regs = s.regs := rfl
@[simp] theorem State.setFb_I (f : Framebuffer) : (s.setFb f).I = s.I := rfl
@[simp] theorem State.setFb_pc (f : Framebuffer) : (s.setFb f).pc = s.pc := rfl
@[simp] theorem State.setFb_stack (f : Framebuffer) : (s.setFb f).stack = s.stack := rfl
@[simp] theorem State.setFb_sp (f : Framebuffer) : (s.setFb f).sp = s.sp := rfl
@[simp] theorem State.setFb_dt (f : Framebuffer) : (s.setFb f).dt = s.dt := rfl
@[simp] theorem State.setFb_st (f : Framebuffer) : (s.setFb f).st = s.st := rfl
@[simp] theorem State.setFb_fb (f : Framebuffer) : (s.setFb f).fb = f := rfl
@[simp] theorem State.setFb_fault (f : Framebuffer) : (s.setFb f).fault = s.fault := rfl
@[simp] theorem State.setFb_cause (f : Framebuffer) : (s.setFb f).cause = s.cause := rfl
@[simp] theorem State.setFb_finfo (f : Framebuffer) : (s.setFb f).finfo = s.finfo := rfl
@[simp] theorem State.setFb_op (f : Framebuffer) : (s.setFb f).op = s.op := rfl
@[simp] theorem State.setFb_history (f : Framebuffer) : (s.setFb f).history = s.history := rfl
@[simp] theorem State.setFb_keys (f : Framebuffer) : (s.setFb f).keys = s.keys := rfl
@[simp] theorem State.setFb_draws (f : Framebuffer) : (s.setFb f).draws = s.draws := rfl
@[simp] theorem State.setFb_drawCount (f : Framebuffer) : (s.setFb f).drawCount = s.drawCount := rfl
@[simp] theorem State.setFb_config (f : Framebuffer) : (s.setFb f).config = s.config := rfl
@[simp] theorem State.setFb_reg (f : Framebuffer) (r : Nibble) : (s.setFb f).reg r = s.reg r := rfl
@[simp] theorem State.setFb_byteAt (f : Framebuffer) (b : Nat) : (s.setFb f).byteAt b = s.byteAt b := rfl
@[simp] theorem State.setFb_stackAt (f : Framebuffer) (k : Nat) : (s.setFb f).stackAt k = s.stackAt k := rfl
@[simp] theorem State.setFb_keyDown (f : Framebuffer) (k : Nat) : (s.setFb f).keyDown k = s.keyDown k := rfl
@[simp] theorem State.setFb_effAddr (f : Framebuffer) (k : Nat) : (s.setFb f).effAddr k = s.effAddr k := rfl

/-! ### setByte -/

@[simp] theorem State.setByte_mem (a : Nat) (v : Byte) : (s.setByte a v).mem = Memory.set s.config s.mem a v := rfl
@[simp] theorem State.setByte_regs (a : Nat) (v : Byte) : (s.setByte a v).regs = s.regs := rfl
@[simp] theorem State.setByte_I (a : Nat) (v : Byte) : (s.setByte a v).I = s.I := rfl
@[simp] theorem State.setByte_pc (a : Nat) (v : Byte) : (s.setByte a v).pc = s.pc := rfl
@[simp] theorem State.setByte_stack (a : Nat) (v : Byte) : (s.setByte a v).stack = s.stack := rfl
@[simp] theorem State.setByte_sp (a : Nat) (v : Byte) : (s.setByte a v).sp = s.sp := rfl
@[simp] theorem State.setByte_dt (a : Nat) (v : Byte) : (s.setByte a v).dt = s.dt := rfl
@[simp] theorem State.setByte_st (a : Nat) (v : Byte) : (s.setByte a v).st = s.st := rfl
@[simp] theorem State.setByte_fb (a : Nat) (v : Byte) : (s.setByte a v).fb = s.fb := rfl
@[simp] theorem State.setByte_fault (a : Nat) (v : Byte) : (s.setByte a v).fault = s.fault := rfl
@[simp] theorem State.setByte_cause (a : Nat) (v : Byte) : (s.setByte a v).cause = s.cause := rfl
@[simp] theorem State.setByte_finfo (a : Nat) (v : Byte) : (s.setByte a v).finfo = s.finfo := rfl
@[simp] theorem State.setByte_op (a : Nat) (v : Byte) : (s.setByte a v).op = s.op := rfl
@[simp] theorem State.setByte_history (a : Nat) (v : Byte) : (s.setByte a v).history = s.history := rfl
@[simp] theorem State.setByte_keys (a : Nat) (v : Byte) : (s.setByte a v).keys = s.keys := rfl
@[simp] theorem State.setByte_draws (a : Nat) (v : Byte) : (s.setByte a v).draws = s.draws := rfl
@[simp] theorem State.setByte_drawCount (a : Nat) (v : Byte) : (s.setByte a v).drawCount = s.drawCount := rfl
@[simp] theorem State.setByte_config (a : Nat) (v : Byte) : (s.setByte a v).config = s.config := rfl
@[simp] theorem State.setByte_reg (a : Nat) (v : Byte) (r : Nibble) : (s.setByte a v).reg r = s.reg r := rfl
@[simp] theorem State.setByte_stackAt (a : Nat) (v : Byte) (k : Nat) : (s.setByte a v).stackAt k = s.stackAt k := rfl
@[simp] theorem State.setByte_pixel (a : Nat) (v : Byte) (px py : Nat) : (s.setByte a v).pixel px py = s.pixel px py := rfl
@[simp] theorem State.setByte_keyDown (a : Nat) (v : Byte) (k : Nat) : (s.setByte a v).keyDown k = s.keyDown k := rfl
@[simp] theorem State.setByte_effAddr (a : Nat) (v : Byte) (k : Nat) : (s.setByte a v).effAddr k = s.effAddr k := rfl

/-! ### takeFault -/

@[simp] theorem State.takeFault_mem (f : Fault) : (s.takeFault f).mem = s.mem := rfl
@[simp] theorem State.takeFault_regs (f : Fault) : (s.takeFault f).regs = s.regs := rfl
@[simp] theorem State.takeFault_I (f : Fault) : (s.takeFault f).I = s.I := rfl
@[simp] theorem State.takeFault_pc (f : Fault) : (s.takeFault f).pc = s.pc := rfl
@[simp] theorem State.takeFault_stack (f : Fault) : (s.takeFault f).stack = s.stack := rfl
@[simp] theorem State.takeFault_sp (f : Fault) : (s.takeFault f).sp = s.sp := rfl
@[simp] theorem State.takeFault_dt (f : Fault) : (s.takeFault f).dt = s.dt := rfl
@[simp] theorem State.takeFault_st (f : Fault) : (s.takeFault f).st = s.st := rfl
@[simp] theorem State.takeFault_fb (f : Fault) : (s.takeFault f).fb = s.fb := rfl
@[simp] theorem State.takeFault_fault (f : Fault) : (s.takeFault f).fault = true := rfl
@[simp] theorem State.takeFault_cause (f : Fault) : (s.takeFault f).cause = f.code := rfl
@[simp] theorem State.takeFault_finfo (f : Fault) : (s.takeFault f).finfo = f.info := rfl
@[simp] theorem State.takeFault_op (f : Fault) : (s.takeFault f).op = s.op := rfl
@[simp] theorem State.takeFault_history (f : Fault) : (s.takeFault f).history = s.history := rfl
@[simp] theorem State.takeFault_keys (f : Fault) : (s.takeFault f).keys = s.keys := rfl
@[simp] theorem State.takeFault_draws (f : Fault) : (s.takeFault f).draws = s.draws := rfl
@[simp] theorem State.takeFault_drawCount (f : Fault) : (s.takeFault f).drawCount = s.drawCount := rfl
@[simp] theorem State.takeFault_config (f : Fault) : (s.takeFault f).config = s.config := rfl
@[simp] theorem State.takeFault_reg (f : Fault) (r : Nibble) : (s.takeFault f).reg r = s.reg r := rfl
@[simp] theorem State.takeFault_byteAt (f : Fault) (b : Nat) : (s.takeFault f).byteAt b = s.byteAt b := rfl
@[simp] theorem State.takeFault_stackAt (f : Fault) (k : Nat) : (s.takeFault f).stackAt k = s.stackAt k := rfl
@[simp] theorem State.takeFault_pixel (f : Fault) (px py : Nat) : (s.takeFault f).pixel px py = s.pixel px py := rfl
@[simp] theorem State.takeFault_keyDown (f : Fault) (k : Nat) : (s.takeFault f).keyDown k = s.keyDown k := rfl
@[simp] theorem State.takeFault_effAddr (f : Fault) (k : Nat) : (s.takeFault f).effAddr k = s.effAddr k := rfl

/-! ### record -/

@[simp] theorem State.record_mem (w : Word) : (s.record w).mem = s.mem := rfl
@[simp] theorem State.record_regs (w : Word) : (s.record w).regs = s.regs := rfl
@[simp] theorem State.record_I (w : Word) : (s.record w).I = s.I := rfl
@[simp] theorem State.record_pc (w : Word) : (s.record w).pc = s.pc := rfl
@[simp] theorem State.record_stack (w : Word) : (s.record w).stack = s.stack := rfl
@[simp] theorem State.record_sp (w : Word) : (s.record w).sp = s.sp := rfl
@[simp] theorem State.record_dt (w : Word) : (s.record w).dt = s.dt := rfl
@[simp] theorem State.record_st (w : Word) : (s.record w).st = s.st := rfl
@[simp] theorem State.record_fb (w : Word) : (s.record w).fb = s.fb := rfl
@[simp] theorem State.record_fault (w : Word) : (s.record w).fault = s.fault := rfl
@[simp] theorem State.record_cause (w : Word) : (s.record w).cause = s.cause := rfl
@[simp] theorem State.record_finfo (w : Word) : (s.record w).finfo = s.finfo := rfl
@[simp] theorem State.record_op (w : Word) : (s.record w).op = w := rfl
@[simp] theorem State.record_history (w : Word) : (s.record w).history = appendHistory s.history w := rfl
@[simp] theorem State.record_keys (w : Word) : (s.record w).keys = s.keys := rfl
@[simp] theorem State.record_draws (w : Word) : (s.record w).draws = s.draws := rfl
@[simp] theorem State.record_drawCount (w : Word) : (s.record w).drawCount = s.drawCount := rfl
@[simp] theorem State.record_config (w : Word) : (s.record w).config = s.config := rfl
@[simp] theorem State.record_reg (w : Word) (r : Nibble) : (s.record w).reg r = s.reg r := rfl
@[simp] theorem State.record_byteAt (w : Word) (b : Nat) : (s.record w).byteAt b = s.byteAt b := rfl
@[simp] theorem State.record_stackAt (w : Word) (k : Nat) : (s.record w).stackAt k = s.stackAt k := rfl
@[simp] theorem State.record_pixel (w : Word) (px py : Nat) : (s.record w).pixel px py = s.pixel px py := rfl
@[simp] theorem State.record_keyDown (w : Word) (k : Nat) : (s.record w).keyDown k = s.keyDown k := rfl
@[simp] theorem State.record_effAddr (w : Word) (k : Nat) : (s.record w).effAddr k = s.effAddr k := rfl

/-! ### setKeys -/

@[simp] theorem State.setKeys_mem (ks : Vector Bool 16) : (s.setKeys ks).mem = s.mem := rfl
@[simp] theorem State.setKeys_regs (ks : Vector Bool 16) : (s.setKeys ks).regs = s.regs := rfl
@[simp] theorem State.setKeys_I (ks : Vector Bool 16) : (s.setKeys ks).I = s.I := rfl
@[simp] theorem State.setKeys_pc (ks : Vector Bool 16) : (s.setKeys ks).pc = s.pc := rfl
@[simp] theorem State.setKeys_stack (ks : Vector Bool 16) : (s.setKeys ks).stack = s.stack := rfl
@[simp] theorem State.setKeys_sp (ks : Vector Bool 16) : (s.setKeys ks).sp = s.sp := rfl
@[simp] theorem State.setKeys_dt (ks : Vector Bool 16) : (s.setKeys ks).dt = s.dt := rfl
@[simp] theorem State.setKeys_st (ks : Vector Bool 16) : (s.setKeys ks).st = s.st := rfl
@[simp] theorem State.setKeys_fb (ks : Vector Bool 16) : (s.setKeys ks).fb = s.fb := rfl
@[simp] theorem State.setKeys_fault (ks : Vector Bool 16) : (s.setKeys ks).fault = s.fault := rfl
@[simp] theorem State.setKeys_cause (ks : Vector Bool 16) : (s.setKeys ks).cause = s.cause := rfl
@[simp] theorem State.setKeys_finfo (ks : Vector Bool 16) : (s.setKeys ks).finfo = s.finfo := rfl
@[simp] theorem State.setKeys_op (ks : Vector Bool 16) : (s.setKeys ks).op = s.op := rfl
@[simp] theorem State.setKeys_history (ks : Vector Bool 16) : (s.setKeys ks).history = s.history := rfl
@[simp] theorem State.setKeys_keys (ks : Vector Bool 16) : (s.setKeys ks).keys = ks := rfl
@[simp] theorem State.setKeys_draws (ks : Vector Bool 16) : (s.setKeys ks).draws = s.draws := rfl
@[simp] theorem State.setKeys_drawCount (ks : Vector Bool 16) : (s.setKeys ks).drawCount = s.drawCount := rfl
@[simp] theorem State.setKeys_config (ks : Vector Bool 16) : (s.setKeys ks).config = s.config := rfl
@[simp] theorem State.setKeys_reg (ks : Vector Bool 16) (r : Nibble) : (s.setKeys ks).reg r = s.reg r := rfl
@[simp] theorem State.setKeys_byteAt (ks : Vector Bool 16) (b : Nat) : (s.setKeys ks).byteAt b = s.byteAt b := rfl
@[simp] theorem State.setKeys_stackAt (ks : Vector Bool 16) (k : Nat) : (s.setKeys ks).stackAt k = s.stackAt k := rfl
@[simp] theorem State.setKeys_pixel (ks : Vector Bool 16) (px py : Nat) : (s.setKeys ks).pixel px py = s.pixel px py := rfl
@[simp] theorem State.setKeys_effAddr (ks : Vector Bool 16) (k : Nat) : (s.setKeys ks).effAddr k = s.effAddr k := rfl

/-! ### offerDraws -/

@[simp] theorem State.offerDraws_mem (bs : List Byte) : (s.offerDraws bs).mem = s.mem := rfl
@[simp] theorem State.offerDraws_regs (bs : List Byte) : (s.offerDraws bs).regs = s.regs := rfl
@[simp] theorem State.offerDraws_I (bs : List Byte) : (s.offerDraws bs).I = s.I := rfl
@[simp] theorem State.offerDraws_pc (bs : List Byte) : (s.offerDraws bs).pc = s.pc := rfl
@[simp] theorem State.offerDraws_stack (bs : List Byte) : (s.offerDraws bs).stack = s.stack := rfl
@[simp] theorem State.offerDraws_sp (bs : List Byte) : (s.offerDraws bs).sp = s.sp := rfl
@[simp] theorem State.offerDraws_dt (bs : List Byte) : (s.offerDraws bs).dt = s.dt := rfl
@[simp] theorem State.offerDraws_st (bs : List Byte) : (s.offerDraws bs).st = s.st := rfl
@[simp] theorem State.offerDraws_fb (bs : List Byte) : (s.offerDraws bs).fb = s.fb := rfl
@[simp] theorem State.offerDraws_fault (bs : List Byte) : (s.offerDraws bs).fault = s.fault := rfl
@[simp] theorem State.offerDraws_cause (bs : List Byte) : (s.offerDraws bs).cause = s.cause := rfl
@[simp] theorem State.offerDraws_finfo (bs : List Byte) : (s.offerDraws bs).finfo = s.finfo := rfl
@[simp] theorem State.offerDraws_op (bs : List Byte) : (s.offerDraws bs).op = s.op := rfl
@[simp] theorem State.offerDraws_history (bs : List Byte) : (s.offerDraws bs).history = s.history := rfl
@[simp] theorem State.offerDraws_keys (bs : List Byte) : (s.offerDraws bs).keys = s.keys := rfl
@[simp] theorem State.offerDraws_draws (bs : List Byte) : (s.offerDraws bs).draws = bs := rfl
@[simp] theorem State.offerDraws_drawCount (bs : List Byte) : (s.offerDraws bs).drawCount = s.drawCount := rfl
@[simp] theorem State.offerDraws_config (bs : List Byte) : (s.offerDraws bs).config = s.config := rfl
@[simp] theorem State.offerDraws_reg (bs : List Byte) (r : Nibble) : (s.offerDraws bs).reg r = s.reg r := rfl
@[simp] theorem State.offerDraws_byteAt (bs : List Byte) (b : Nat) : (s.offerDraws bs).byteAt b = s.byteAt b := rfl
@[simp] theorem State.offerDraws_stackAt (bs : List Byte) (k : Nat) : (s.offerDraws bs).stackAt k = s.stackAt k := rfl
@[simp] theorem State.offerDraws_pixel (bs : List Byte) (px py : Nat) : (s.offerDraws bs).pixel px py = s.pixel px py := rfl
@[simp] theorem State.offerDraws_keyDown (bs : List Byte) (k : Nat) : (s.offerDraws bs).keyDown k = s.keyDown k := rfl
@[simp] theorem State.offerDraws_effAddr (bs : List Byte) (k : Nat) : (s.offerDraws bs).effAddr k = s.effAddr k := rfl

/-! ### The updates that are one of these -/

@[simp] theorem State.advance_eq : s.advance = s.setPc (s.pc + 2) := rfl
@[simp] theorem State.rewind_eq : s.rewind = s.setPc (s.pc - 2) := rfl
@[simp] theorem State.tick_eq : s.tick = (s.setDt (tickByte s.dt)).setSt (tickByte s.st) := rfl
@[simp] theorem State.setFlag_eq (b : Bool) : s.setFlag b = s.setReg flagReg (flagByte b) := rfl
@[simp] theorem State.setFlagThenReg_eq (b : Bool) (x : Nibble) (v : Byte) :
    s.setFlagThenReg b x v = (s.setReg flagReg (flagByte b)).setReg x v := rfl
@[simp] theorem State.setFlagThenShift_eq (b : Bool) (x : Nibble) (f : Byte → Byte) :
    s.setFlagThenShift b x f = (s.setFlag b).setReg x (f ((s.setFlag b).reg x)) := rfl
@[simp] theorem State.setFb_pixel (f : Framebuffer) (px py : Nat) : (s.setFb f).pixel px py = Framebuffer.pixel f px py :=
  rfl
@[simp] theorem State.setKeys_keyDown (ks : Vector Bool 16) (k : Nat) :
    (s.setKeys ks).keyDown k = ks[k]?.getD false := rfl
@[simp] theorem State.settle_ok (t : State) : s.settle (.ok t) = .next t := rfl
@[simp] theorem State.settle_error (f : Fault) : s.settle (.error f) = .next ((s.setPc (s.pc - 2)).takeFault f) := rfl

/-! ### Registers -/

@[simp] theorem State.reg_setReg_same (i : Nibble) (v : Byte) : (s.setReg i v).reg i = v := by
  simp [State.reg]

theorem State.reg_setReg_other {i r : Nibble} (v : Byte) (h : r ≠ i) : (s.setReg i v).reg r = s.reg r := by
  have : i.toNat ≠ r.toNat := fun e => h (BitVec.eq_of_toNat_eq e.symm)
  simp [State.reg, this]

theorem State.reg_setReg (i r : Nibble) (v : Byte) : (s.setReg i v).reg r = if r = i then v else s.reg r := by
  split
  · next h => subst h; simp
  · next h => exact s.reg_setReg_other v h

/-! ### The random port -/

/-- Sampling the port changes the port alone. -/
theorem State.consumeDraw_eq : ∃ bs n, s.consumeDraw = { s with draws := bs, drawCount := n } := by
  unfold State.consumeDraw
  split
  · exact ⟨s.draws, _, rfl⟩
  · exact ⟨_, s.drawCount, rfl⟩

end Sys2Proof.Machine
end

