-- ==== Sys2Proof/Laws/Draw.lean ====
section
/-! SUPPORT. The laws of drawing (44_display.md R131): one pixel, one row, all rows. Each lemma says everything its
loop can do: it inverts exactly the pixels under 1 bits and reports whether one of them was set, or it reports the first
bit or byte that does not fit. -/

namespace Sys2Proof.Machine

/-- Toggling a pixel of the grid inverts it and no other. -/
theorem Framebuffer.pixel_toggle (f : Framebuffer) {px py : Nat} (hx : px < 64) (hy : py < 32) (qx qy : Nat) :
    Framebuffer.pixel (Framebuffer.toggle f px py) qx qy =
      if qx = px ∧ qy = py then !Framebuffer.pixel f qx qy else Framebuffer.pixel f qx qy := by
  simp only [Framebuffer.pixel, Framebuffer.toggle, dif_pos hy]
  by_cases hqy : qy = py
  · subst hqy
    by_cases hqx : qx = px
    · subst hqx; simp [hy, hx]
    · simp [hy, hqx, BitVec.getLsbD_twoPow, Ne.symm hqx]
  · simp [hqy, Ne.symm hqy]

/-- The drawing `d'` is `d` with exactly the pixels of `lit` inverted, and its flag is set if it was or if one of them
was set. -/
structure DrawOk (lit : Nat → Nat → Prop) (d d' : Drawing) : Prop where
  inverted : ∀ qx qy, lit qx qy → Framebuffer.pixel d'.1 qx qy = !Framebuffer.pixel d.1 qx qy
  kept : ∀ qx qy, ¬ lit qx qy → Framebuffer.pixel d'.1 qx qy = Framebuffer.pixel d.1 qx qy
  hit : d'.2 = true ↔ d.2 = true ∨ ∃ qx qy, lit qx qy ∧ Framebuffer.pixel d.1 qx qy = true

theorem DrawOk.refl (d : Drawing) : DrawOk (fun _ _ => False) d d :=
  ⟨fun _ _ h => h.elim, fun _ _ _ => rfl, by simp⟩

theorem DrawOk.congr {lit lit' : Nat → Nat → Prop} {d d' : Drawing} (h : DrawOk lit d d')
    (heq : ∀ qx qy, lit' qx qy ↔ lit qx qy) : DrawOk lit' d d' := by
  obtain rfl : lit' = lit := funext fun qx => funext fun qy => propext (heq qx qy)
  exact h

/-- Drawing disjoint sets of pixels one after the other draws their union. -/
theorem DrawOk.trans {lit₁ lit₂ : Nat → Nat → Prop} {d d₁ d₂ : Drawing} (h₁ : DrawOk lit₁ d d₁)
    (h₂ : DrawOk lit₂ d₁ d₂) (hdis : ∀ qx qy, lit₁ qx qy → ¬ lit₂ qx qy) :
    DrawOk (fun qx qy => lit₁ qx qy ∨ lit₂ qx qy) d d₂ where
  inverted qx qy h := by
    rcases h with h | h
    · rw [h₂.kept qx qy (hdis qx qy h), h₁.inverted qx qy h]
    · rw [h₂.inverted qx qy h, h₁.kept qx qy fun h' => hdis qx qy h' h]
  kept qx qy h := by rw [h₂.kept qx qy fun h' => h (.inr h'), h₁.kept qx qy fun h' => h (.inl h')]
  hit := by
    rw [h₂.hit, h₁.hit]
    constructor
    · rintro ((h | ⟨qx, qy, hl, hp⟩) | ⟨qx, qy, hl, hp⟩)
      · exact .inl h
      · exact .inr ⟨qx, qy, .inl hl, hp⟩
      · rw [h₁.kept qx qy fun h' => hdis qx qy h' hl] at hp
        exact .inr ⟨qx, qy, .inr hl, hp⟩
    · rintro (h | ⟨qx, qy, hl | hl, hp⟩)
      · exact .inl (.inl h)
      · exact .inl (.inr ⟨qx, qy, hl, hp⟩)
      · refine .inr ⟨qx, qy, hl, ?_⟩
        rwa [h₁.kept qx qy fun h' => hdis qx qy h' hl]

/-- One sprite bit. -/
theorem drawPixel_spec (site : Word) (px py : Nat) (b : Bool) (d : Drawing) :
    ((b = true → px < 64 ∧ py < 32) → ∃ d', drawPixel site px py b d = .ok d' ∧
      DrawOk (fun qx qy => b = true ∧ qx = px ∧ qy = py) d d') ∧
    (b = true → ¬ (px < 64 ∧ py < 32) → drawPixel site px py b d = .error (.fbRange site)) := by
  cases b with
  | false => exact ⟨fun _ => ⟨d, rfl, (DrawOk.refl d).congr (by simp)⟩, fun h => by simp at h⟩
  | true =>
    have hoff : (px ≥ fbWidth ∨ py ≥ fbHeight) ↔ ¬ (px < 64 ∧ py < 32) := by
      simp only [fbWidth, fbHeight]; omega
    constructor
    · intro h
      obtain ⟨hx, hy⟩ := h rfl
      refine ⟨_, by rw [drawPixel, if_neg (by simp), if_neg (by rw [hoff]; simp [hx, hy])], ?_, ?_, ?_⟩
      · rintro qx qy ⟨-, h⟩
        rw [Framebuffer.pixel_toggle d.1 hx hy, if_pos h]
      · intro qx qy h
        rw [Framebuffer.pixel_toggle d.1 hx hy, if_neg fun h' => h ⟨rfl, h'⟩]
      · simp only [Bool.or_eq_true]
        refine or_congr_right ⟨fun hp => ⟨px, py, ⟨trivial, rfl, rfl⟩, hp⟩, ?_⟩
        rintro ⟨qx, qy, ⟨-, rfl, rfl⟩, hp⟩
        exact hp
    · intro _ h
      rw [drawPixel, if_neg (by simp), if_pos (hoff.2 h)]

/-- The columns of one row. -/
theorem drawCols_spec (site : Word) (b : Byte) (x0 py : Nat) (cols : List Nat) (d : Drawing) (hnd : cols.Nodup) :
    ((∀ col ∈ cols, spriteBit b col = true → x0 + col < 64 ∧ py < 32) →
      ∃ d', drawCols site b x0 py cols d = .ok d' ∧
        DrawOk (fun qx qy => qy = py ∧ ∃ col ∈ cols, spriteBit b col = true ∧ qx = x0 + col) d d') ∧
    ((¬ ∀ col ∈ cols, spriteBit b col = true → x0 + col < 64 ∧ py < 32) →
      drawCols site b x0 py cols d = .error (.fbRange site)) := by
  induction cols generalizing d with
  | nil => exact ⟨fun _ => ⟨d, rfl, (DrawOk.refl d).congr (by simp)⟩, fun h => by simp at h⟩
  | cons col cols ih =>
    rw [List.nodup_cons] at hnd
    obtain ⟨hfit, hoff⟩ := drawPixel_spec site (x0 + col) py (spriteBit b col) d
    by_cases hc : spriteBit b col = true → x0 + col < 64 ∧ py < 32
    · obtain ⟨d₁, hd₁, hok₁⟩ := hfit hc
      obtain ⟨hrest, hbad⟩ := ih d₁ hnd.2
      have hstep : drawCols site b x0 py (col :: cols) d = drawCols site b x0 py cols d₁ := by
        rw [drawCols, hd₁]; rfl
      constructor
      · intro h
        obtain ⟨d₂, hd₂, hok₂⟩ := hrest fun c hm => h c (List.mem_cons_of_mem _ hm)
        refine ⟨d₂, by rw [hstep, hd₂], (hok₁.trans hok₂ ?_).congr ?_⟩
        · rintro qx qy ⟨-, rfl, rfl⟩ ⟨-, c, hm, -, hx⟩
          exact hnd.1 ((show col = c by omega) ▸ hm)
        · intro qx qy
          simp only [List.mem_cons, exists_eq_or_imp, and_or_left]
          exact or_congr_left ⟨fun ⟨hy, hb, hx⟩ => ⟨hb, hx, hy⟩, fun ⟨hb, hx, hy⟩ => ⟨hy, hb, hx⟩⟩
      · intro h
        rw [hstep]
        refine hbad fun h' => h fun c hm => ?_
        rcases List.mem_cons.1 hm with rfl | hm
        · exact hc
        · exact h' c hm
    · constructor
      · intro h; exact absurd (h col (List.mem_cons_self ..)) hc
      · intro _
        obtain ⟨hb, hxy⟩ := Classical.not_imp.1 hc
        rw [drawCols, hoff hb hxy]; rfl

/-- Row `row` of the sprite at `I`, started at `(x0, y0)`, can be drawn. -/
def RowFits (s : State) (x0 y0 row : Nat) : Prop :=
  s.effAddr row ≤ topAddress ∧
    ∀ col, col < 8 → spriteBit (s.byteAt (s.effAddr row)) col = true → x0 + col < 64 ∧ y0 + row < 32

/-- The pixel lies under a 1 bit of one of the rows `rows`. -/
def RowsCover (s : State) (x0 y0 : Nat) (rows : List Nat) (qx qy : Nat) : Prop :=
  ∃ row ∈ rows, ∃ col, col < 8 ∧ spriteBit (s.byteAt (s.effAddr row)) col = true ∧ qx = x0 + col ∧ qy = y0 + row

/-- One row. -/
theorem drawRow_spec (s : State) (x0 y0 row : Nat) (rows : List Nat) (d : Drawing) :
    (RowFits s x0 y0 row → ∃ d₁, drawRows s x0 y0 (row :: rows) d = drawRows s x0 y0 rows d₁ ∧
      DrawOk (RowsCover s x0 y0 [row]) d d₁) ∧
    (¬ s.effAddr row ≤ topAddress → drawRows s x0 y0 (row :: rows) d = .error (.memRange (s.effAddr row))) ∧
    (s.effAddr row ≤ topAddress → ¬ RowFits s x0 y0 row →
      drawRows s x0 y0 (row :: rows) d = .error (.fbRange s.site)) := by
  obtain ⟨hfit, hoff⟩ := drawCols_spec s.site (s.byteAt (s.effAddr row)) x0 (y0 + row) (List.range 8) d List.nodup_range
  simp only [List.mem_range] at hfit hoff
  refine ⟨fun h => ?_, fun h => ?_, fun h h' => ?_⟩
  · obtain ⟨d₁, hd₁, hok⟩ := hfit h.2
    refine ⟨d₁, ?_, hok.congr fun qx qy => ?_⟩
    · rw [drawRows, State.memRead, if_pos h.1]
      simp only [Except.bind, hd₁]
    · simp only [RowsCover, List.mem_singleton, exists_eq_left]
      constructor
      · rintro ⟨col, hc, hb, hx, hy⟩; exact ⟨hy, col, hc, hb, hx⟩
      · rintro ⟨hy, col, hc, hb, hx⟩; exact ⟨col, hc, hb, hx, hy⟩
  · rw [drawRows, State.memRead, if_neg h]; rfl
  · rw [drawRows, State.memRead, if_pos h]
    simp only [Except.bind, hoff fun hc => h' ⟨h, hc⟩]

/-- All rows, where each fits. -/
theorem drawRows_fits (s : State) (x0 y0 : Nat) (rows : List Nat) (d : Drawing) (hnd : rows.Nodup)
    (h : ∀ row ∈ rows, RowFits s x0 y0 row) :
    ∃ d', drawRows s x0 y0 rows d = .ok d' ∧ DrawOk (RowsCover s x0 y0 rows) d d' := by
  induction rows generalizing d with
  | nil => exact ⟨d, rfl, (DrawOk.refl d).congr (by simp [RowsCover])⟩
  | cons row rows ih =>
    rw [List.nodup_cons] at hnd
    obtain ⟨d₁, hd₁, hok₁⟩ := (drawRow_spec s x0 y0 row rows d).1 (h row (List.mem_cons_self ..))
    obtain ⟨d₂, hd₂, hok₂⟩ := ih d₁ hnd.2 fun r hr => h r (List.mem_cons_of_mem _ hr)
    refine ⟨d₂, by rw [hd₁, hd₂], (hok₁.trans hok₂ ?_).congr ?_⟩
    · rintro qx qy ⟨r, hr, c, -, -, -, hy⟩ ⟨r', hr', c', -, -, -, hy'⟩
      rw [List.mem_singleton] at hr
      exact hnd.1 ((show row = r' by omega) ▸ hr')
    · intro qx qy
      simp only [RowsCover, List.mem_cons, List.not_mem_nil, or_false, or_and_right, exists_or]

/-- The first row that does not fit, whatever follows it. -/
theorem drawRows_first_bad (s : State) (x0 y0 row : Nat) (before after : List Nat) (d : Drawing)
    (h : ∀ r ∈ before, RowFits s x0 y0 r) (hbad : ¬ RowFits s x0 y0 row) :
    drawRows s x0 y0 (before ++ row :: after) d =
      .error (if s.effAddr row ≤ topAddress then .fbRange s.site else .memRange (s.effAddr row)) := by
  induction before generalizing d with
  | nil =>
    obtain ⟨-, hmem, hfb⟩ := drawRow_spec s x0 y0 row after d
    split
    · next ha => exact hfb ha hbad
    · next ha => exact hmem ha
  | cons r before ih =>
    obtain ⟨d₁, hd₁, -⟩ := (drawRow_spec s x0 y0 r (before ++ row :: after) d).1 (h r (List.mem_cons_self ..))
    rw [List.cons_append, hd₁]
    exact ih d₁ fun r' hr' => h r' (List.mem_cons_of_mem _ hr')

/-- `List.range n` split at one of its members. -/
theorem range_split {row n : Nat} (h : row < n) :
    List.range n = List.range row ++ row :: List.range' (row + 1) (n - row - 1) := by
  rw [List.range_eq_range', List.range_eq_range', show row :: List.range' (row + 1) (n - row - 1) =
    List.range' row (n - row - 1 + 1) from (List.range'_succ ..).symm]
  have := List.range'_append (s := 0) (m := row) (n := n - row - 1 + 1) (step := 1)
  simp only [Nat.one_mul, Nat.zero_add] at this
  rw [this, show row + (n - row - 1 + 1) = n by omega]

end Sys2Proof.Machine
end

