-- ==== Sys2Proof/Laws/Memory.lean ====
section
/-! SUPPORT. The laws of memory (20_memory.md R52, R53, R58) and of its canonical form (log 14): what a read sees after
a write, that every operation keeps the form, that equal reads mean equal memories; and the laws of the operations over
several bytes, one for each. -/

namespace Sys2Proof.Machine

variable (c : Config)

/-! ### The reset contents (R24) -/

/-- The program region resets to zero (R24). -/
theorem Memory.initial_above {a : Nat} (h : 0x200 ≤ a) : Memory.initial c a = 0 :=
  if_pos h

/-- The font region resets to the font table (R24). -/
theorem Memory.initial_font {k : Nat} (h : k < 80) : Memory.initial c (c.fontBase.val + k) = c.font[k] := by
  have := c.fontBase.isLt
  unfold Memory.initial
  rw [if_neg (by simp only [progBase]; omega), if_pos (by omega)]
  simp [h]

/-- Every byte outside the font region resets to zero (R24). -/
theorem Memory.initial_outside {a : Nat} (h : a < c.fontBase.val ∨ c.fontBase.val + 80 ≤ a) :
    Memory.initial c a = 0 := by
  unfold Memory.initial
  split
  · rfl
  · split
    · rw [Vector.getElem?_eq_none (by omega)]; rfl
    · rfl

/-! ### The canonical form -/

theorem Memory.wfFrom_mono {low low' : Nat} {m : Memory} (hle : low' ≤ low) (h : Memory.wfFrom c low m = true) :
    Memory.wfFrom c low' m = true := by
  cases m with
  | nil => rfl
  | cons cell rest =>
    simp only [Memory.wfFrom, Bool.and_eq_true, decide_eq_true_eq] at h ⊢
    exact ⟨⟨by omega, h.1.2⟩, h.2⟩

/-- Below the first listed address memory reads as unlisted. -/
theorem Memory.get_below {low a : Nat} {m : Memory} (h : Memory.wfFrom c low m = true) (ha : a < low) :
    Memory.get c m a = Memory.initial c a := by
  induction m generalizing low with
  | nil => rfl
  | cons cell rest ih =>
    simp only [Memory.wfFrom, Bool.and_eq_true, decide_eq_true_eq] at h
    rw [Memory.get, if_neg (by omega)]
    exact ih h.2 (by omega)

theorem Memory.get_put {a : Nat} {rest : Memory} (v : Byte) (b : Nat) (h : Memory.wfFrom c (a + 1) rest = true) :
    Memory.get c (Memory.put c a v rest) b = if b = a then v else Memory.get c rest b := by
  unfold Memory.put
  split
  · next hv =>
    split
    · next hb => rw [hb, Memory.get_below c h (by omega), hv]
    · rfl
  · rfl

theorem Memory.wfFrom_put {low a : Nat} {rest : Memory} (v : Byte) (hlow : low ≤ a) (htop : a ≤ topAddress)
    (h : Memory.wfFrom c (a + 1) rest = true) : Memory.wfFrom c low (Memory.put c a v rest) = true := by
  unfold Memory.put
  split
  · exact Memory.wfFrom_mono c (by omega) h
  · next hv => simp [Memory.wfFrom, hlow, htop, hv, h]

/-- A read after a write: the byte written at its address, the old byte elsewhere. -/
theorem Memory.get_set {low : Nat} {m : Memory} (a : Nat) (v : Byte) (b : Nat) (h : Memory.wfFrom c low m = true) :
    Memory.get c (Memory.set c m a v) b = if b = a then v else Memory.get c m b := by
  induction m generalizing low with
  | nil => exact Memory.get_put c v b rfl
  | cons cell rest ih =>
    obtain ⟨d, w⟩ := cell
    have h' := h
    simp only [Memory.wfFrom, Bool.and_eq_true, decide_eq_true_eq] at h
    unfold Memory.set
    split
    · next hlt =>
      refine Memory.get_put c v b ?_
      simp only [Memory.wfFrom, Bool.and_eq_true, decide_eq_true_eq]
      exact ⟨⟨by omega, h.1.2⟩, h.2⟩
    · split
      · next hne heq =>
        subst heq
        rw [Memory.get_put c v b h.2, Memory.get]
        split <;> rfl
      · next hnlt hne =>
        rw [Memory.get, Memory.get, ih h.2]
        split
        · next hb => rw [if_neg (by omega)]
        · rfl

/-- A write keeps the canonical form. -/
theorem Memory.wfFrom_set {low : Nat} {m : Memory} (a : Nat) (v : Byte) (hlow : low ≤ a) (htop : a ≤ topAddress)
    (h : Memory.wfFrom c low m = true) : Memory.wfFrom c low (Memory.set c m a v) = true := by
  induction m generalizing low with
  | nil => exact Memory.wfFrom_put c v hlow htop rfl
  | cons cell rest ih =>
    obtain ⟨d, w⟩ := cell
    simp only [Memory.wfFrom, Bool.and_eq_true, decide_eq_true_eq] at h
    unfold Memory.set
    split
    · next hlt =>
      refine Memory.wfFrom_put c v hlow htop ?_
      simp only [Memory.wfFrom, Bool.and_eq_true, decide_eq_true_eq]
      exact ⟨⟨by omega, h.1.2⟩, h.2⟩
    · split
      · next heq => subst heq; exact Memory.wfFrom_put c v hlow htop h.2
      · simp only [Memory.wfFrom, Bool.and_eq_true, decide_eq_true_eq]
        exact ⟨h.1, ih (by omega) h.2⟩

theorem Memory.wf_set {m : Memory} (a : Nat) (v : Byte) (htop : a ≤ topAddress) (h : Memory.wf c m = true) :
    Memory.wf c (Memory.set c m a v) = true :=
  Memory.wfFrom_set c a v (Nat.zero_le a) htop h

/-- Two memories in canonical form that read the same from `low` up are the same list. -/
theorem Memory.ext_wfFrom {low : Nat} {m₁ m₂ : Memory} (h₁ : Memory.wfFrom c low m₁ = true)
    (h₂ : Memory.wfFrom c low m₂ = true) (h : ∀ a, Memory.get c m₁ a = Memory.get c m₂ a) : m₁ = m₂ := by
  induction m₁ generalizing low m₂ with
  | nil =>
    cases m₂ with
    | nil => rfl
    | cons cell rest =>
      simp only [Memory.wfFrom, Bool.and_eq_true, decide_eq_true_eq] at h₂
      have := h cell.1
      rw [show Memory.get c (cell :: rest) cell.1 = cell.2 from if_pos rfl] at this
      exact absurd this.symm h₂.1.2.2
  | cons cell₁ rest₁ ih =>
    obtain ⟨a₁, v₁⟩ := cell₁
    have w₁ := h₁
    simp only [Memory.wfFrom, Bool.and_eq_true, decide_eq_true_eq] at h₁
    cases m₂ with
    | nil =>
      have := h a₁
      rw [show Memory.get c ((a₁, v₁) :: rest₁) a₁ = v₁ from if_pos rfl] at this
      exact absurd this h₁.1.2.2
    | cons cell₂ rest₂ =>
      obtain ⟨a₂, v₂⟩ := cell₂
      have w₂ := h₂
      simp only [Memory.wfFrom, Bool.and_eq_true, decide_eq_true_eq] at h₂
      have e₁ : Memory.get c ((a₁, v₁) :: rest₁) a₁ = v₁ := if_pos rfl
      have e₂ : Memory.get c ((a₂, v₂) :: rest₂) a₂ = v₂ := if_pos rfl
      have hab : a₁ = a₂ := by
        rcases Nat.lt_trichotomy a₁ a₂ with hlt | heq | hgt
        · have hb : Memory.wfFrom c (a₁ + 1) ((a₂, v₂) :: rest₂) = true := by
            simp only [Memory.wfFrom, Bool.and_eq_true, decide_eq_true_eq]
            exact ⟨⟨by omega, h₂.1.2⟩, h₂.2⟩
          have := h a₁
          rw [e₁, Memory.get_below c hb (by omega)] at this
          exact absurd this h₁.1.2.2
        · exact heq
        · have hb : Memory.wfFrom c (a₂ + 1) ((a₁, v₁) :: rest₁) = true := by
            simp only [Memory.wfFrom, Bool.and_eq_true, decide_eq_true_eq]
            exact ⟨⟨by omega, h₁.1.2⟩, h₁.2⟩
          have := h a₂
          rw [e₂, Memory.get_below c hb (by omega)] at this
          exact absurd this.symm h₂.1.2.2
      subst hab
      have hv : v₁ = v₂ := by rw [← e₁, h a₁, e₂]
      subst hv
      have htail : ∀ b, Memory.get c rest₁ b = Memory.get c rest₂ b := by
        intro b
        by_cases hb : b = a₁
        · rw [hb, Memory.get_below c h₁.2 (by omega), Memory.get_below c h₂.2 (by omega)]
        · have := h b
          rwa [Memory.get, Memory.get, if_neg hb, if_neg hb] at this
      rw [ih h₁.2 h₂.2 htail]

/-! ### The primitives on a state -/

theorem State.byteAt_setByte (s : State) (a : Nat) (v : Byte) (b : Nat) (h : Memory.wf s.config s.mem = true) :
    (s.setByte a v).byteAt b = if b = a then v else s.byteAt b :=
  Memory.get_set s.config a v b h

theorem State.wf_setByte (s : State) (a : Nat) (v : Byte) (htop : a ≤ topAddress)
    (h : Memory.wf s.config s.mem = true) : Memory.wf (s.setByte a v).config (s.setByte a v).mem = true :=
  Memory.wf_set s.config a v htop h

/-- `MemWrite` of several bytes, everything it can do (R53, R55): all of them land, in place and nowhere else, and only
`mem` differs; or the lowest address out of range is reported. -/
theorem State.memWriteAll_spec (vs : List Byte) (s : State) (a : Nat) (h : Memory.wf s.config s.mem = true) :
    (a + vs.length ≤ topAddress + 1 → ∃ m, s.memWriteAll a vs = .ok { s with mem := m } ∧
      Memory.wf s.config m = true ∧ (∀ k v, vs[k]? = some v → Memory.get s.config m (a + k) = v) ∧
      ∀ b, b < a ∨ a + vs.length ≤ b → Memory.get s.config m b = s.byteAt b) ∧
    (topAddress + 1 < a + vs.length → vs ≠ [] → s.memWriteAll a vs = .error (.memRange (max a (topAddress + 1)))) := by
  induction vs generalizing s a with
  | nil => exact ⟨fun _ => ⟨s.mem, rfl, h, by simp, fun _ _ => rfl⟩, fun _ hne => absurd rfl hne⟩
  | cons v vs ih =>
    have hlen : (v :: vs).length = vs.length + 1 := rfl
    by_cases ha : a ≤ topAddress
    · have hstep : s.memWriteAll a (v :: vs) = (s.setByte a v).memWriteAll (a + 1) vs := by
        simp [State.memWriteAll, State.memWrite, ha, Except.bind]
      have hset := s.wf_setByte a v ha h
      obtain ⟨hok, herr⟩ := ih (s.setByte a v) (a + 1) hset
      constructor
      · intro hfit
        obtain ⟨m, hm, hwf, hin, hout⟩ := hok (by omega)
        refine ⟨m, by rw [hstep, hm]; rfl, hwf, ?_, ?_⟩
        · intro k w hk
          cases k with
          | zero =>
            simp only [List.getElem?_cons_zero, Option.some.injEq] at hk
            subst hk
            have := hout a (by omega)
            rw [s.byteAt_setByte a v a h, if_pos rfl] at this
            exact this
          | succ k =>
            simp only [List.getElem?_cons_succ] at hk
            have := hin k w hk
            rwa [show a + (k + 1) = a + 1 + k by omega]
        · intro b hb
          have := hout b (by omega)
          rwa [s.byteAt_setByte a v b h, if_neg (by omega)] at this
      · intro hbig _
        cases vs with
        | nil => simp at hbig; omega
        | cons w ws =>
          rw [hstep, herr (by simp at hbig ⊢; omega) (by simp)]
          congr 2
          omega
    · constructor
      · intro hfit; omega
      · intro _ _
        simp [State.memWriteAll, State.memWrite, ha, Except.bind, show max a (topAddress + 1) = a by omega]

/-- `MemRead` of several bytes, everything it can do (R52, R55). -/
theorem State.memReadAll_spec (n : Nat) (s : State) (a : Nat) :
    (a + n ≤ topAddress + 1 → s.memReadAll a n = .ok ((List.range' a n).map s.byteAt)) ∧
    (topAddress + 1 < a + n → 0 < n → s.memReadAll a n = .error (.memRange (max a (topAddress + 1)))) := by
  induction n generalizing a with
  | zero => exact ⟨fun _ => rfl, fun _ h => absurd h (by decide)⟩
  | succ n ih =>
    obtain ⟨hok, herr⟩ := ih (a + 1)
    by_cases ha : a ≤ topAddress
    · constructor
      · intro hfit
        simp [State.memReadAll, State.memRead, ha, Except.bind, hok (by omega), Except.map, List.range'_succ]
      · intro hbig _
        have hn : 0 < n := by omega
        simp [State.memReadAll, State.memRead, ha, Except.bind, herr (by omega) hn, Except.map]
        omega
    · constructor
      · intro hfit; omega
      · intro _ _
        simp [State.memReadAll, State.memRead, ha, Except.bind, show max a (topAddress + 1) = a by omega]

/-- Writing a list of at most 16 - `k` bytes into the registers from `x[k]` up changes the registers alone, those it
reaches and no other. -/
theorem State.setRegsFrom_spec (vs : List Byte) (s : State) (k : Nat) (hk : k + vs.length ≤ 16) :
    ∃ rs, s.setRegsFrom k vs = { s with regs := rs } ∧
      ∀ r : Nibble, (s.setRegsFrom k vs).reg r =
        if k ≤ r.toNat ∧ r.toNat < k + vs.length then (vs[r.toNat - k]?).getD 0 else s.reg r := by
  induction vs generalizing s k with
  | nil => exact ⟨s.regs, rfl, fun r => by rw [if_neg (by simp)]; rfl⟩
  | cons v vs ih =>
    have hlen : (v :: vs).length = vs.length + 1 := rfl
    obtain ⟨rs, hrs, hreg⟩ := ih (s.setReg (BitVec.ofNat 4 k) v) (k + 1) (by omega)
    refine ⟨rs, hrs, fun r => ?_⟩
    rw [State.setRegsFrom, hreg r]
    have hr := r.isLt
    have hkk : (BitVec.ofNat 4 k).toNat = k := by simp; omega
    by_cases hrk : r.toNat = k
    · have hrr : r = BitVec.ofNat 4 k := BitVec.eq_of_toNat_eq (by rw [hkk, hrk])
      rw [if_neg (by omega), if_pos (by omega), hrr, State.reg_setReg_same, hkk]
      simp
    · have hrr : r ≠ BitVec.ofNat 4 k := fun e => hrk (by rw [e, hkk])
      by_cases hin : k + 1 ≤ r.toNat ∧ r.toNat < k + 1 + vs.length
      · rw [if_pos hin, if_pos (by omega)]
        rw [show r.toNat - k = (r.toNat - (k + 1)) + 1 by omega]
        simp
      · rw [if_neg hin, if_neg (by omega), State.reg_setReg_other s v hrr]

end Sys2Proof.Machine
end

