-- ==== Sys2Proof/Laws/Exec.lean ====
section
/-! SUPPORT. Said once, what an instruction can do: `exec` always answers a next state, in which the instruction has had
its effect (`Handled`) or has taken a fault it may raise (`MayRaise`). The rules of the whole machine follow from this
by a case split over the instructions, with no meaning unfolded again. -/

namespace Sys2Proof.Machine

/-- The states an instruction that raises no fault can leave, in terms of what it writes. -/
def Handled : Instr → State → State → Prop
  | .cls _, s, t => t = s.setFb Framebuffer.clear
  | .ret _, s, t => ∃ k : Fin 17, k.val + 1 = s.sp.val ∧ t = { s with sp := k, pc := s.stackAt k.val }
  | .jp nnn, s, t => t = s.setPc (zextNNN nnn)
  | .call nnn, s, t => ∃ (k : Fin 17) (h : s.sp.val < 16), k.val = s.sp.val + 1 ∧
      t = { s with stack := s.stack.set s.sp.val s.pc h, sp := k, pc := zextNNN nnn }
  | .seImm x nn, s, t => t = s.skipIf (s.reg x == nn)
  | .sneImm x nn, s, t => t = s.skipIf (s.reg x != nn)
  | .seReg x y _, s, t => t = s.skipIf (s.reg x == s.reg y)
  | .sneReg x y _, s, t => t = s.skipIf (s.reg x != s.reg y)
  | .ldImm x nn, s, t => t = s.setReg x nn
  | .addImm x nn, s, t => t = s.setReg x (s.reg x + nn)
  | .ldReg x y, s, t => t = s.setReg x (s.reg y)
  | .orReg x y, s, t => t = s.setReg x (s.reg x ||| s.reg y)
  | .andReg x y, s, t => t = s.setReg x (s.reg x &&& s.reg y)
  | .xorReg x y, s, t => t = s.setReg x (s.reg x ^^^ s.reg y)
  | .addReg x y, s, t => t = s.setFlagThenReg (carryOut (s.reg x) (s.reg y)) x (s.reg x + s.reg y)
  | .sub x y, s, t => t = s.setFlagThenReg (noBorrow (s.reg x) (s.reg y)) x (s.reg x - s.reg y)
  | .subn x y, s, t => t = s.setFlagThenReg (noBorrow (s.reg y) (s.reg x)) x (s.reg y - s.reg x)
  | .shr x _, s, t => t = s.setFlagThenShift (lowBit (s.reg x)) x (· >>> 1)
  | .shl x _, s, t => t = s.setFlagThenShift (highBit (s.reg x)) x (· <<< 1)
  | .ldI nnn, s, t => t = s.setI (zextNNN nnn)
  | .jpV0 nnn, s, t => s.config.pBnnn = .jpV0 ∧ t = s.setPc (s.offsetTarget nnn) ∨ s.config.pBnnn = .nop ∧ t = s
  | .rnd x nn, s, t => t = s.consumeDraw.setReg x (s.randByte &&& nn)
  | .drw _ _ _, s, t => ∃ f hit, t = (s.setFb f).setReg flagReg (flagByte hit)
  | .skp x _, s, t => (s.reg x).toNat < 16 ∧ t = s.skipIf (s.keyDown (s.reg x).toNat)
  | .sknp x _, s, t => (s.reg x).toNat < 16 ∧ t = s.skipIf (!s.keyDown (s.reg x).toNat)
  | .ldVxDt x, s, t => t = s.setReg x s.dt
  | .ldVxK x, s, t => (∃ k, s.leastKey = some k ∧ t = s.setReg x (BitVec.ofNat 8 k)) ∨
      s.leastKey = none ∧ t = s.setPc (s.pc - 2)
  | .ldDtVx x, s, t => t = s.setDt (s.reg x)
  | .ldStVx x, s, t => t = s.setSt (s.reg x)
  | .addI x, s, t => t = s.setI (s.I + zextByte (s.reg x))
  | .ldF x, s, t => t = s.setI (s.glyphAddr (s.reg x))
  | .ldB _, s, t => ∃ m, (Memory.wf s.config s.mem = true → Memory.wf s.config m = true) ∧ t = { s with mem := m }
  | .storeRegs _, s, t =>
      ∃ m, (Memory.wf s.config s.mem = true → Memory.wf s.config m = true) ∧ t = { s with mem := m }
  | .loadRegs x, s, t => ∃ rs, t = { s with regs := rs } ∧ ∀ r : Nibble, x.toNat < r.toNat → t.reg r = s.reg r
  | .nop _, s, t => t = s

/-- The faults an instruction may raise, and when (60_exceptions.md R151). -/
def MayRaise : Instr → State → Fault → Prop
  | .call _, s, f => s.sp.val = 16 ∧ f = .stackOverflow s.site
  | .ret _, s, f => s.sp.val = 0 ∧ f = .stackUnderflow s.site
  | .drw _ _ _, s, f => f = .fbRange s.site ∨ ∃ k, k < 16 ∧ s.effAddr k > topAddress ∧ f = .memRange (s.effAddr k)
  | .skp x _, s, f => (s.reg x).toNat > 15 ∧ f = .keyRange (s.reg x)
  | .sknp x _, s, f => (s.reg x).toNat > 15 ∧ f = .keyRange (s.reg x)
  | .ldB _, s, f => ∃ k, k < 16 ∧ s.effAddr k > topAddress ∧ f = .memRange (s.effAddr k)
  | .storeRegs _, s, f => ∃ k, k < 16 ∧ s.effAddr k > topAddress ∧ f = .memRange (s.effAddr k)
  | .loadRegs _, s, f => ∃ k, k < 16 ∧ s.effAddr k > topAddress ∧ f = .memRange (s.effAddr k)
  | _, _, _ => False

/-- Where a write of several bytes goes, in any memory: to a memory that is canonical if the old one was, or to the
lowest address out of range. -/
theorem State.memWriteAll_shape (vs : List Byte) (s : State) (a : Nat) :
    (∃ m, s.memWriteAll a vs = .ok { s with mem := m } ∧
      (Memory.wf s.config s.mem = true → Memory.wf s.config m = true)) ∨
    ∃ k, k < vs.length ∧ a + k > topAddress ∧ s.memWriteAll a vs = .error (.memRange (a + k)) := by
  induction vs generalizing s a with
  | nil => exact .inl ⟨s.mem, rfl, id⟩
  | cons v vs ih =>
    by_cases ha : a ≤ topAddress
    · have hstep : s.memWriteAll a (v :: vs) = (s.setByte a v).memWriteAll (a + 1) vs := by
        simp [State.memWriteAll, State.memWrite, ha, Except.bind]
      rcases ih (s.setByte a v) (a + 1) with ⟨m, hm, hwf⟩ | ⟨k, hk, hout, herr⟩
      · exact .inl ⟨m, by rw [hstep, hm]; rfl, fun h => hwf (s.wf_setByte a v ha h)⟩
      · exact .inr ⟨k + 1, by simp; omega, by omega, by rw [hstep, herr, show a + (k + 1) = a + 1 + k by omega]⟩
    · exact .inr ⟨0, by simp, by omega, by simp [State.memWriteAll, State.memWrite, ha, Except.bind]⟩

/-- A register dump has one byte for each register `V0` to `Vx`. -/
theorem State.length_regsUpTo (s : State) (x : Nibble) : (s.regsUpTo x).length = x.toNat + 1 := by
  have := x.isLt
  simp [State.regsUpTo]
  omega

/-- The least pressed key, if there is one, is a key that is pressed. -/
theorem State.leastKey_some (s : State) {k : Nat} (h : s.leastKey = some k) :
    k < 16 ∧ s.keyDown k = true ∧ ∀ j, j < k → s.keyDown j = false := by
  simp only [State.leastKey, List.find?_range_eq_some] at h
  exact ⟨by have := h.2.1; simpa [keyCount] using this, h.1, fun j hj => by simpa using h.2.2 j hj⟩

/-- A store annulled by an address out of range: the effect of `settle` on what `memWriteAll` answers. -/
theorem State.settle_memWriteAll (s : State) (vs : List Byte) (hlen : vs.length ≤ 16) :
    ∃ t, s.settle (s.memWriteAll (s.effAddr 0) vs) = .next t ∧
      ((∃ m, (Memory.wf s.config s.mem = true → Memory.wf s.config m = true) ∧ t = { s with mem := m }) ∨
        ∃ f, (∃ k, k < 16 ∧ s.effAddr k > topAddress ∧ f = .memRange (s.effAddr k)) ∧
          t = (s.setPc (s.pc - 2)).takeFault f) := by
  rcases s.memWriteAll_shape vs (s.effAddr 0) with ⟨m, hm, hwf⟩ | ⟨k, hk, hout, herr⟩
  · exact ⟨_, by rw [hm]; rfl, .inl ⟨m, hwf, rfl⟩⟩
  · exact ⟨_, by rw [herr]; rfl, .inr ⟨_, ⟨k, by omega, hout, rfl⟩, rfl⟩⟩

/-- What a draw that is not refused leaves, and which faults it raises. -/
theorem drawRows_cases (s : State) (x0 y0 : Nat) (n : Nat) (hn : n ≤ 16) (d : Drawing) :
    (∃ d', drawRows s x0 y0 (List.range n) d = .ok d') ∨
    ∃ f, drawRows s x0 y0 (List.range n) d = .error f ∧
      (f = .fbRange s.site ∨ ∃ k, k < 16 ∧ s.effAddr k > topAddress ∧ f = .memRange (s.effAddr k)) := by
  by_cases h : ∀ row ∈ List.range n, RowFits s x0 y0 row
  · obtain ⟨d', hd', -⟩ := drawRows_fits s x0 y0 (List.range n) d List.nodup_range h
    exact .inl ⟨d', hd'⟩
  · have hex : ∃ row, row < n ∧ ¬ RowFits s x0 y0 row := by simpa using h
    classical
    obtain ⟨hrow, hbad⟩ := Nat.find_spec hex
    have hmin : ∀ r ∈ List.range (Nat.find hex), RowFits s x0 y0 r := by
      intro r hr
      have := Nat.find_min hex (List.mem_range.1 hr)
      by_contra hc
      exact this ⟨by have := List.mem_range.1 hr; omega, hc⟩
    refine .inr ⟨_, by rw [range_split hrow]; exact drawRows_first_bad s x0 y0 _ _ _ d hmin hbad, ?_⟩
    split
    · exact .inl rfl
    · exact .inr ⟨_, by omega, by omega, rfl⟩

/-- Everything an instruction can do. -/
theorem exec_effect (i : Instr) (s : State) : ∃ t, exec i s = .next t ∧
    (Handled i s t ∨ ∃ f, MayRaise i s f ∧ t = (s.setPc (s.pc - 2)).takeFault f) := by
  cases i with
  | ret mid =>
    simp only [exec, execRet, State.popPc]
    split
    · next h => exact ⟨_, rfl, .inl ⟨⟨s.sp.val - 1, by omega⟩, by simp; omega, rfl⟩⟩
    · next h => exact ⟨_, rfl, .inr ⟨_, ⟨by omega, rfl⟩, rfl⟩⟩
  | call nnn =>
    simp only [exec, execCall, State.push]
    split
    · next h => exact ⟨_, rfl, .inl ⟨⟨s.sp.val + 1, by omega⟩, h, rfl, rfl⟩⟩
    · next h => exact ⟨_, rfl, .inr ⟨_, ⟨by omega, rfl⟩, rfl⟩⟩
  | jpV0 nnn =>
    simp only [exec, execJpV0]
    split
    · next h => exact ⟨_, rfl, .inl (.inl ⟨h, rfl⟩)⟩
    · next h => exact ⟨_, rfl, .inl (.inr ⟨h, rfl⟩)⟩
  | drw x y n =>
    rcases drawRows_cases s (s.spriteCol x) (s.spriteRow y) n.toNat (by have := n.isLt; omega) (s.fb, false) with
      ⟨d, hd⟩ | ⟨f, hf, hwhy⟩
    · exact ⟨_, by simp only [exec, execDrw, hd]; rfl, .inl ⟨d.1, d.2, rfl⟩⟩
    · exact ⟨_, by simp only [exec, execDrw, hf]; rfl, .inr ⟨f, hwhy, rfl⟩⟩
  | skp x mid =>
    simp only [exec, execSkp, State.keyOf]
    split
    · next h => exact ⟨_, rfl, .inl ⟨h, rfl⟩⟩
    · next h => exact ⟨_, rfl, .inr ⟨_, ⟨by simp [keyCount] at h; omega, rfl⟩, rfl⟩⟩
  | sknp x mid =>
    simp only [exec, execSknp, State.keyOf]
    split
    · next h => exact ⟨_, rfl, .inl ⟨h, rfl⟩⟩
    · next h => exact ⟨_, rfl, .inr ⟨_, ⟨by simp [keyCount] at h; omega, rfl⟩, rfl⟩⟩
  | ldVxK x =>
    simp only [exec, execLdVxK]
    split
    · next k h => exact ⟨_, rfl, .inl (.inl ⟨k, h, rfl⟩)⟩
    · next h => exact ⟨_, rfl, .inl (.inr ⟨h, rfl⟩)⟩
  | ldB x => exact s.settle_memWriteAll (bcdDigits (s.reg x)) (by simp [bcdDigits])
  | storeRegs x =>
    exact s.settle_memWriteAll (s.regsUpTo x) (by rw [s.length_regsUpTo]; have := x.isLt; omega)
  | loadRegs x =>
    have hx := x.isLt
    obtain ⟨hok, herr⟩ := s.memReadAll_spec (x.toNat + 1) (s.effAddr 0)
    by_cases hfit : s.effAddr 0 + (x.toNat + 1) ≤ topAddress + 1
    · obtain ⟨rs, hrs, hreg⟩ := s.setRegsFrom_spec ((List.range' (s.effAddr 0) (x.toNat + 1)).map s.byteAt) 0
        (by simp; omega)
      refine ⟨_, by simp only [exec, execLoadRegs, hok hfit, Except.map]; rfl, .inl ⟨rs, hrs, fun r hr => ?_⟩⟩
      rw [hreg r, if_neg (by simp; omega)]
    · refine ⟨_, by simp only [exec, execLoadRegs, herr (by omega) (by omega), Except.map]; rfl, .inr ⟨_, ?_, rfl⟩⟩
      refine ⟨max (s.effAddr 0) (topAddress + 1) - s.effAddr 0, ?_, ?_, ?_⟩ <;> simp only [State.effAddr] at * <;>
        first | omega | (congr 1; omega)
  | _ => exact ⟨_, rfl, .inl rfl⟩

/-- The inversion of `exec`. -/
theorem exec_inv {i : Instr} {s t : State} (h : exec i s = .next t) :
    Handled i s t ∨ ∃ f, MayRaise i s f ∧ t = (s.setPc (s.pc - 2)).takeFault f := by
  obtain ⟨t', ht', h'⟩ := exec_effect i s
  rw [h] at ht'
  cases ht'
  exact h'

/-- A skip in terms of `pc` alone. -/
theorem State.skipIf_eq (s : State) (b : Bool) : s.skipIf b = s.setPc (if b then s.pc + 2 else s.pc) := by
  cases b <;> rfl

end Sys2Proof.Machine
end

