-- ==== Sys2Proof/Laws/Frame.lean ====
section
/-! SUPPORT. The frame of every instruction in one table: the parts of the state it may write when it raises no fault,
and that all others stay the same. A handler that faults changes `pc` and the latches alone. -/

namespace Sys2Proof.Machine

/-- The parts an instruction may write when it raises no fault. -/
def writes : Instr → List StatePart
  | .cls _ => [.screen]
  | .ret _ => [.pc, .sp]
  | .jp _ | .jpV0 _ => [.pc]
  | .call _ => [.pc, .stack, .sp]
  | .seImm _ _ | .sneImm _ _ | .seReg _ _ _ | .sneReg _ _ _ | .skp _ _ | .sknp _ _ => [.pc]
  | .ldImm _ _ | .addImm _ _ | .ldReg _ _ | .orReg _ _ | .andReg _ _ | .xorReg _ _ | .addReg _ _ | .sub _ _
  | .shr _ _ | .subn _ _ | .shl _ _ | .ldVxDt _ | .loadRegs _ => [.registers]
  | .ldI _ | .addI _ | .ldF _ => [.index]
  | .rnd _ _ => [.registers, .random]
  | .drw _ _ _ => [.registers, .screen]
  | .ldVxK _ => [.registers, .pc]
  | .ldDtVx _ => [.dt]
  | .ldStVx _ => [.st]
  | .ldB _ | .storeRegs _ => [.memory]
  | .nop _ => []

/-- An instruction that has its effect writes no part outside its row of `writes`. -/
theorem Handled.frame {i : Instr} {s t : State} (h : Handled i s t) : Frame (writes i) s t := by
  intro p hp
  cases i
  all_goals simp only [Handled, State.skipIf_eq] at h
  case ret => obtain ⟨k, _, rfl⟩ := h; cases p <;> first | rfl | exact fun _ => rfl | simp_all [writes, StatePart.same]
  case call =>
    obtain ⟨k, _, _, rfl⟩ := h; cases p <;> first | rfl | exact fun _ => rfl | simp_all [writes, StatePart.same]
  case jpV0 =>
    rcases h with ⟨_, rfl⟩ | ⟨_, rfl⟩ <;> cases p <;> first | rfl | exact fun _ => rfl | simp_all [writes, StatePart.same]
  case rnd =>
    obtain ⟨bs, n, hd⟩ := s.consumeDraw_eq
    rw [hd] at h
    subst h
    cases p <;> first | rfl | exact fun _ => rfl | simp_all [writes, StatePart.same]
  case drw => obtain ⟨f, b, rfl⟩ := h; cases p <;> first | rfl | exact fun _ => rfl | simp_all [writes, StatePart.same]
  case skp => obtain ⟨-, rfl⟩ := h; cases p <;> first | rfl | exact fun _ => rfl | simp_all [writes, StatePart.same]
  case sknp => obtain ⟨-, rfl⟩ := h; cases p <;> first | rfl | exact fun _ => rfl | simp_all [writes, StatePart.same]
  case ldVxK =>
    rcases h with ⟨k, _, rfl⟩ | ⟨_, rfl⟩ <;> cases p <;>
      first | rfl | exact fun _ => rfl | simp_all [writes, StatePart.same]
  case ldB => obtain ⟨m, _, rfl⟩ := h; cases p <;> first | rfl | exact fun _ => rfl | simp_all [writes, StatePart.same]
  case storeRegs =>
    obtain ⟨m, _, rfl⟩ := h; cases p <;> first | rfl | exact fun _ => rfl | simp_all [writes, StatePart.same]
  case loadRegs =>
    obtain ⟨rs, rfl, _⟩ := h; cases p <;> first | rfl | exact fun _ => rfl | simp_all [writes, StatePart.same]
  all_goals
    subst h
    cases p <;> first | rfl | exact fun _ => rfl | simp_all [writes, StatePart.same]

/-- What a faulting handler leaves alone. -/
theorem takeFault_frame (s : State) (pc : Word) (f : Fault) : Frame [.pc, .latches] s ((s.setPc pc).takeFault f) := by
  intro p hp
  cases p <;> first | rfl | exact fun _ => rfl | simp_all [StatePart.same]

/-- Whatever the outcome, an instruction changes only the parts of its row, `pc` and the latches. -/
theorem exec_frame {i : Instr} {s t : State} (h : exec i s = .next t) : Frame (.pc :: .latches :: writes i) s t := by
  intro p hp
  simp only [List.mem_cons, not_or] at hp
  rcases exec_inv h with hh | ⟨f, -, rfl⟩
  · exact hh.frame p hp.2.2
  · exact takeFault_frame s _ f p (by simp [hp.1, hp.2.1])

end Sys2Proof.Machine
end

