-- ==== Sys2Proof/Laws/PerInstr.lean ====
section
/-! SUPPORT. The encoding laws: the fields of an encoded word (30_encoding.md R72, R73), the word put together again from
its fields, and, instruction by instruction, that decoding the word of a well-formed instruction gives it back (family
`RoundTrip` of LAWS.json). -/

namespace Sys2Proof.Laws

/-! ### The fields of each format -/

@[simp] theorem topNibble_encodeNNN (k : Nibble) (nnn : Imm12) : topNibble (encodeNNN k nnn) = k := by
  ext i hi
  simp only [topNibble, encodeNNN, BitVec.getElem_extractLsb', BitVec.getLsbD_append]
  simp [← BitVec.getLsbD_eq_getElem, show ¬ 12 + i < 12 by omega]

@[simp] theorem fieldNNN_encodeNNN (k : Nibble) (nnn : Imm12) : fieldNNN (encodeNNN k nnn) = nnn := by
  ext i hi
  simp only [fieldNNN, encodeNNN, BitVec.getElem_extractLsb', BitVec.getLsbD_append]
  simp [BitVec.getLsbD_eq_getElem, hi]

@[simp] theorem topNibble_encodeXNN (k x : Nibble) (nn : Byte) : topNibble (encodeXNN k x nn) = k := by
  ext i hi
  simp only [topNibble, encodeXNN, BitVec.getElem_extractLsb', BitVec.getLsbD_append]
  simp [← BitVec.getLsbD_eq_getElem, show ¬ 12 + i < 8 by omega, show ¬ 12 + i - 8 < 4 by omega,
    show 12 + i - 8 - 4 = i by omega]

@[simp] theorem fieldX_encodeXNN (k x : Nibble) (nn : Byte) : fieldX (encodeXNN k x nn) = x := by
  ext i hi
  simp only [fieldX, encodeXNN, BitVec.getElem_extractLsb', BitVec.getLsbD_append]
  simp [BitVec.getLsbD_eq_getElem, hi]

@[simp] theorem fieldNN_encodeXNN (k x : Nibble) (nn : Byte) : fieldNN (encodeXNN k x nn) = nn := by
  ext i hi
  simp only [fieldNN, encodeXNN, BitVec.getElem_extractLsb', BitVec.getLsbD_append]
  simp [BitVec.getLsbD_eq_getElem, hi]

@[simp] theorem topNibble_encodeXYN (k x y n : Nibble) : topNibble (encodeXYN k x y n) = k := by
  ext i hi
  simp only [topNibble, encodeXYN, BitVec.getElem_extractLsb', BitVec.getLsbD_append]
  simp [← BitVec.getLsbD_eq_getElem, show ¬ 12 + i < 4 by omega, show ¬ 12 + i - 4 < 4 by omega,
    show ¬ 12 + i - 4 - 4 < 4 by omega, show 12 + i - 4 - 4 - 4 = i by omega]

@[simp] theorem fieldX_encodeXYN (k x y n : Nibble) : fieldX (encodeXYN k x y n) = x := by
  ext i hi
  simp only [fieldX, encodeXYN, BitVec.getElem_extractLsb', BitVec.getLsbD_append]
  simp [← BitVec.getLsbD_eq_getElem, hi, show ¬ 8 + i < 4 by omega, show ¬ 8 + i - 4 < 4 by omega,
    show 8 + i - 4 - 4 = i by omega]

@[simp] theorem fieldY_encodeXYN (k x y n : Nibble) : fieldY (encodeXYN k x y n) = y := by
  ext i hi
  simp only [fieldY, encodeXYN, BitVec.getElem_extractLsb', BitVec.getLsbD_append]
  simp [BitVec.getLsbD_eq_getElem, hi]

@[simp] theorem fieldN_encodeXYN (k x y n : Nibble) : fieldN (encodeXYN k x y n) = n := by
  ext i hi
  simp only [fieldN, encodeXYN, BitVec.getElem_extractLsb', BitVec.getLsbD_append]
  simp [BitVec.getLsbD_eq_getElem, hi]

@[simp] theorem topNibble_encodeZ (k : Nibble) (mid : Byte) (low : Nibble) : topNibble (encodeZ k mid low) = k := by
  ext i hi
  simp only [topNibble, encodeZ, BitVec.getElem_extractLsb', BitVec.getLsbD_append]
  simp [← BitVec.getLsbD_eq_getElem, show ¬ 12 + i < 4 by omega, show ¬ 12 + i - 4 < 8 by omega,
    show 12 + i - 4 - 8 = i by omega]

@[simp] theorem fieldMid_encodeZ (k : Nibble) (mid : Byte) (low : Nibble) : fieldMid (encodeZ k mid low) = mid := by
  ext i hi
  simp only [fieldMid, encodeZ, BitVec.getElem_extractLsb', BitVec.getLsbD_append]
  simp [BitVec.getLsbD_eq_getElem, hi]

@[simp] theorem fieldN_encodeZ (k : Nibble) (mid : Byte) (low : Nibble) : fieldN (encodeZ k mid low) = low := by
  ext i hi
  simp only [fieldN, encodeZ, BitVec.getElem_extractLsb', BitVec.getLsbD_append]
  simp [BitVec.getLsbD_eq_getElem, hi]

/-! ### A word from its fields -/

theorem encodeNNN_fields (op : Word) : encodeNNN (topNibble op) (fieldNNN op) = op := by
  simp only [topNibble, fieldNNN, encodeNNN]
  rw [
    BitVec.extractLsb'_append_extractLsb'_eq_extractLsb' (show 12 = 0 + 12 by decide),
    BitVec.extractLsb'_eq_self]

theorem encodeXNN_fields (op : Word) : encodeXNN (topNibble op) (fieldX op) (fieldNN op) = op := by
  simp only [topNibble, fieldX, fieldNN, encodeXNN]
  rw [
    BitVec.extractLsb'_append_extractLsb'_eq_extractLsb' (show 12 = 8 + 4 by decide),
    BitVec.extractLsb'_append_extractLsb'_eq_extractLsb' (show 8 = 0 + 8 by decide),
    BitVec.extractLsb'_eq_self]

theorem encodeXYN_fields (op : Word) : encodeXYN (topNibble op) (fieldX op) (fieldY op) (fieldN op) = op := by
  simp only [topNibble, fieldX, fieldY, fieldN, encodeXYN]
  rw [
    BitVec.extractLsb'_append_extractLsb'_eq_extractLsb' (show 12 = 8 + 4 by decide),
    BitVec.extractLsb'_append_extractLsb'_eq_extractLsb' (show 8 = 4 + 4 by decide),
    BitVec.extractLsb'_append_extractLsb'_eq_extractLsb' (show 4 = 0 + 4 by decide),
    BitVec.extractLsb'_eq_self]

theorem encodeZ_fields (op : Word) : encodeZ (topNibble op) (fieldMid op) (fieldN op) = op := by
  simp only [topNibble, fieldMid, fieldN, encodeZ]
  rw [
    BitVec.extractLsb'_append_extractLsb'_eq_extractLsb' (show 12 = 4 + 8 by decide),
    BitVec.extractLsb'_append_extractLsb'_eq_extractLsb' (show 4 = 0 + 4 by decide),
    BitVec.extractLsb'_eq_self]

/-! ### Masks (30_encoding.md R75): a word that matches a row's mask has the row's keys -/

theorem topNibble_and (a b : Word) : topNibble (a &&& b) = topNibble a &&& topNibble b := by
  simp [topNibble, BitVec.extractLsb'_and]

theorem fieldN_and (a b : Word) : fieldN (a &&& b) = fieldN a &&& fieldN b := by
  simp [fieldN, BitVec.extractLsb'_and]

theorem fieldNN_and (a b : Word) : fieldNN (a &&& b) = fieldNN a &&& fieldNN b := by
  simp [fieldNN, BitVec.extractLsb'_and]

theorem topNibble_of_mask {op mask pat : Word} (h : op &&& mask = pat) (hm : topNibble mask = BitVec.allOnes 4) :
    topNibble op = topNibble pat := by
  rw [← h, topNibble_and, hm, BitVec.and_allOnes]

theorem fieldN_of_mask {op mask pat : Word} (h : op &&& mask = pat) (hm : fieldN mask = BitVec.allOnes 4) :
    fieldN op = fieldN pat := by
  rw [← h, fieldN_and, hm, BitVec.and_allOnes]

theorem fieldNN_of_mask {op mask pat : Word} (h : op &&& mask = pat) (hm : fieldNN mask = BitVec.allOnes 8) :
    fieldNN op = fieldNN pat := by
  rw [← h, fieldNN_and, hm, BitVec.and_allOnes]

/-! ### The no-op space -/

/-- A word of the no-op space of R81 decodes to `NOP`. -/
theorem decodeWord_of_isNopWord (p : PBnnn) (op : Word) (h : isNopWord p op = true) : decodeWord p op = .nop op := by
  simp only [isNopWord, Bool.or_eq_true, Bool.and_eq_true, beq_iff_eq] at h
  obtain (((⟨ht, hl⟩ | ⟨ht, hl⟩) | ⟨ht, hl⟩) | ⟨ht, hl⟩) | ⟨ht, rfl⟩ := h <;>
    change topNibble op = _ at ht <;> simp only [decodeWord, ht]
  · change (!List.contains [0x0#4, 0xE#4] (fieldN op)) = true at hl
    unfold decode0
    split <;> simp_all
  · change List.contains [0x8#4, 0x9#4, 0xA#4, 0xB#4, 0xC#4, 0xD#4, 0xF#4] (fieldN op) = true at hl
    unfold decode8
    split <;> simp_all
  · change (!List.contains [0x1#4, 0xE#4] (fieldN op)) = true at hl
    unfold decodeE
    split <;> simp_all
  · change (!List.contains _ (fieldNN op)) = true at hl
    unfold decodeF
    split <;> simp_all

/-! ### The family -/

namespace RoundTrip

/-- Decoding the word of the instruction gives it back, wherever it is well-formed. -/
def Statement (i : Instr) : Prop := ∀ p : PBnnn, i.wf p = true → decodeWord p (encode i) = i

theorem cls (mid : Byte) : Statement (.cls mid) := by
  intro p _
  simp [encode, decodeWord, decode0]

theorem ret (mid : Byte) : Statement (.ret mid) := by
  intro p _
  simp [encode, decodeWord, decode0]

theorem jp (nnn : Imm12) : Statement (.jp nnn) := by
  intro p _
  simp [encode, decodeWord]

theorem call (nnn : Imm12) : Statement (.call nnn) := by
  intro p _
  simp [encode, decodeWord]

theorem seImm (x : Nibble) (nn : Byte) : Statement (.seImm x nn) := by
  intro p _
  simp [encode, decodeWord]

theorem sneImm (x : Nibble) (nn : Byte) : Statement (.sneImm x nn) := by
  intro p _
  simp [encode, decodeWord]

theorem seReg (x y low : Nibble) : Statement (.seReg x y low) := by
  intro p _
  simp [encode, decodeWord]

theorem ldImm (x : Nibble) (nn : Byte) : Statement (.ldImm x nn) := by
  intro p _
  simp [encode, decodeWord]

theorem addImm (x : Nibble) (nn : Byte) : Statement (.addImm x nn) := by
  intro p _
  simp [encode, decodeWord]

theorem ldReg (x y : Nibble) : Statement (.ldReg x y) := by
  intro p _
  simp [encode, decodeWord, decode8]

theorem orReg (x y : Nibble) : Statement (.orReg x y) := by
  intro p _
  simp [encode, decodeWord, decode8]

theorem andReg (x y : Nibble) : Statement (.andReg x y) := by
  intro p _
  simp [encode, decodeWord, decode8]

theorem xorReg (x y : Nibble) : Statement (.xorReg x y) := by
  intro p _
  simp [encode, decodeWord, decode8]

theorem addReg (x y : Nibble) : Statement (.addReg x y) := by
  intro p _
  simp [encode, decodeWord, decode8]

theorem sub (x y : Nibble) : Statement (.sub x y) := by
  intro p _
  simp [encode, decodeWord, decode8]

theorem shr (x y : Nibble) : Statement (.shr x y) := by
  intro p _
  simp [encode, decodeWord, decode8]

theorem subn (x y : Nibble) : Statement (.subn x y) := by
  intro p _
  simp [encode, decodeWord, decode8]

theorem shl (x y : Nibble) : Statement (.shl x y) := by
  intro p _
  simp [encode, decodeWord, decode8]

theorem sneReg (x y low : Nibble) : Statement (.sneReg x y low) := by
  intro p _
  simp [encode, decodeWord]

theorem ldI (nnn : Imm12) : Statement (.ldI nnn) := by
  intro p _
  simp [encode, decodeWord]

theorem jpV0 (nnn : Imm12) : Statement (.jpV0 nnn) := by
  intro p h
  cases p <;> simp_all [Instr.wf, encode, decodeWord]

theorem rnd (x : Nibble) (nn : Byte) : Statement (.rnd x nn) := by
  intro p _
  simp [encode, decodeWord]

theorem drw (x y n : Nibble) : Statement (.drw x y n) := by
  intro p _
  simp [encode, decodeWord]

theorem skp (x mid : Nibble) : Statement (.skp x mid) := by
  intro p _
  simp [encode, decodeWord, decodeE]

theorem sknp (x mid : Nibble) : Statement (.sknp x mid) := by
  intro p _
  simp [encode, decodeWord, decodeE]

theorem ldVxDt (x : Nibble) : Statement (.ldVxDt x) := by
  intro p _
  simp [encode, decodeWord, decodeF]

theorem ldVxK (x : Nibble) : Statement (.ldVxK x) := by
  intro p _
  simp [encode, decodeWord, decodeF]

theorem ldDtVx (x : Nibble) : Statement (.ldDtVx x) := by
  intro p _
  simp [encode, decodeWord, decodeF]

theorem ldStVx (x : Nibble) : Statement (.ldStVx x) := by
  intro p _
  simp [encode, decodeWord, decodeF]

theorem addI (x : Nibble) : Statement (.addI x) := by
  intro p _
  simp [encode, decodeWord, decodeF]

theorem ldF (x : Nibble) : Statement (.ldF x) := by
  intro p _
  simp [encode, decodeWord, decodeF]

theorem ldB (x : Nibble) : Statement (.ldB x) := by
  intro p _
  simp [encode, decodeWord, decodeF]

theorem storeRegs (x : Nibble) : Statement (.storeRegs x) := by
  intro p _
  simp [encode, decodeWord, decodeF]

theorem loadRegs (x : Nibble) : Statement (.loadRegs x) := by
  intro p _
  simp [encode, decodeWord, decodeF]

theorem nop (op : Word) : Statement (.nop op) := fun p h => decodeWord_of_isNopWord p op h

end RoundTrip

end Sys2Proof.Laws
end

