-- ==== Sys2Proof/Laws/Step.lean ====
section
/-! SUPPORT. Said once, what a step can do (40_cycle_and_dispatch.md R90): nothing in the faulted state, `FetchRange`, a
handler's fault, or a handler's effect followed by the record of the opcode and the tick. -/

namespace Sys2Proof.Machine

theorem step_of_fault {s : State} (h : s.fault = true) : step s = .next s := by
  simp [step, h]

theorem step_of_unfetchable {s : State} (h : s.fault = false) (hpc : s.canFetch = false) :
    step s = .next (s.takeFault (.fetchRange s.pc)) := by
  simp [step, h, hpc]

theorem step_of_exec {s t : State} (h : s.fault = false) (hpc : s.canFetch = true)
    (ht : exec s.fetchInstr s.advance = .next t) : step s = .next (t.finish s.fetchWord) := by
  simp only [step, h, hpc, Bool.false_eq_true, if_false, if_true, ht]

theorem canFetch_iff (s : State) : s.canFetch = true ↔ s.pc.toNat ≤ 0xFFE :=
  decide_eq_true_iff

theorem finish_of_fault {t : State} (op : Word) (h : t.fault = true) : t.finish op = t := by
  simp [State.finish, h]

theorem finish_of_ok {t : State} (op : Word) (h : t.fault = false) :
    t.finish op = ((t.record op).setDt (tickByte t.dt)).setSt (tickByte t.st) := by
  simp [State.finish, h]

/-- A handler that has its effect does not touch the latches. -/
theorem Handled.latches {i : Instr} {s t : State} (h : Handled i s t) :
    t.fault = s.fault ∧ t.cause = s.cause ∧ t.finfo = s.finfo := by
  cases i <;> simp only [Handled] at h
  case ret => obtain ⟨k, _, rfl⟩ := h; exact ⟨rfl, rfl, rfl⟩
  case call => obtain ⟨k, _, _, rfl⟩ := h; exact ⟨rfl, rfl, rfl⟩
  case jpV0 => rcases h with ⟨_, rfl⟩ | ⟨_, rfl⟩ <;> exact ⟨rfl, rfl, rfl⟩
  case rnd =>
    obtain ⟨bs, n, hd⟩ := s.consumeDraw_eq
    rw [h, hd]; exact ⟨rfl, rfl, rfl⟩
  case drw => obtain ⟨f, b, rfl⟩ := h; exact ⟨rfl, rfl, rfl⟩
  case skp => rw [h.2, State.skipIf_eq]; exact ⟨rfl, rfl, rfl⟩
  case sknp => rw [h.2, State.skipIf_eq]; exact ⟨rfl, rfl, rfl⟩
  case ldVxK => rcases h with ⟨k, _, rfl⟩ | ⟨_, rfl⟩ <;> exact ⟨rfl, rfl, rfl⟩
  case ldB => obtain ⟨m, _, rfl⟩ := h; exact ⟨rfl, rfl, rfl⟩
  case storeRegs => obtain ⟨m, _, rfl⟩ := h; exact ⟨rfl, rfl, rfl⟩
  case loadRegs => obtain ⟨rs, rfl, _⟩ := h; exact ⟨rfl, rfl, rfl⟩
  all_goals
    rw [h]
    first | exact ⟨rfl, rfl, rfl⟩ | (rw [State.skipIf_eq]; exact ⟨rfl, rfl, rfl⟩)

/-- Fault entry from the advanced state is fault entry from the state before the step (R152). -/
theorem annul_advance (s : State) (f : Fault) :
    (s.advance.setPc (s.advance.pc - 2)).takeFault f = s.takeFault f := by
  simp [State.advance, State.setPc, State.takeFault]

/-- Everything a step can do. -/
theorem step_cases (s : State) :
    (s.fault = true ∧ step s = .next s) ∨
    (s.fault = false ∧ ∃ f, ((s.canFetch = false ∧ f = .fetchRange s.pc) ∨
      (s.canFetch = true ∧ MayRaise s.fetchInstr s.advance f)) ∧ step s = .next (s.takeFault f)) ∨
    (s.fault = false ∧ s.canFetch = true ∧ ∃ t, Handled s.fetchInstr s.advance t ∧
      exec s.fetchInstr s.advance = .next t ∧ t.fault = false ∧
      step s = .next (((t.record s.fetchWord).setDt (tickByte t.dt)).setSt (tickByte t.st))) := by
  by_cases hf : s.fault = true
  · exact .inl ⟨hf, step_of_fault hf⟩
  · have hf : s.fault = false := by simpa using hf
    by_cases hc : s.canFetch = true
    · obtain ⟨t, ht, hh | ⟨f, hm, rfl⟩⟩ := exec_effect s.fetchInstr s.advance
      · have htf : t.fault = false := by rw [hh.latches.1]; exact hf
        exact .inr (.inr ⟨hf, hc, t, hh, ht, htf, by rw [step_of_exec hf hc ht, finish_of_ok _ htf]⟩)
      · refine .inr (.inl ⟨hf, f, .inr ⟨hc, hm⟩, ?_⟩)
        rw [step_of_exec hf hc ht, finish_of_fault _ rfl, annul_advance]
    · have hc : s.canFetch = false := by simpa using hc
      exact .inr (.inl ⟨hf, _, .inl ⟨hc, rfl⟩, step_of_unfetchable hf hc⟩)

/-! ### Runs -/

theorem run_zero (s : State) : Host.Core.run Sys2Proof.core 0 s = .next s := rfl

theorem run_succ {s t : State} (n : Nat) (h : step s = .next t) :
    Host.Core.run Sys2Proof.core (n + 1) s = Host.Core.run Sys2Proof.core n t := by
  have h' : Sys2Proof.core.step s = .next t := h
  simp only [Host.Core.run, h']

/-- A run of `n` steps and then `k` more is a run of `n + k`. -/
theorem run_add {s t : State} (n k : Nat) (h : Host.Core.run Sys2Proof.core n s = .next t) :
    Host.Core.run Sys2Proof.core (n + k) s = Host.Core.run Sys2Proof.core k t := by
  induction n generalizing s with
  | zero =>
    rw [run_zero] at h
    cases h
    rw [Nat.zero_add]
  | succ n ih =>
    rcases step_cases s with ⟨-, hs⟩ | ⟨-, f, -, hs⟩ | ⟨-, -, u, -, -, -, hs⟩ <;>
    · rw [run_succ n hs] at h
      rw [show n + 1 + k = n + k + 1 by omega, run_succ _ hs]
      exact ih h

/-- No cause of R151 has the code 0. -/
theorem Fault.code_ne_zero (f : Fault) : f.code ≠ 0 := by
  cases f <;> simp [Fault.code]

end Sys2Proof.Machine
end

