-- ==== Sys2Proof/Tests/Slice0.lean ====
section
/-! SUPPORT. The model's own tests. Expected results come from the spec: the words of 30_encoding.md R72 and R76 to R81,
and the vectors of 95_test_vectors.md, named by their ids. Then, for each statement with hypotheses, a witness of each
of its clauses, at the boundary values. -/

namespace Sys2Proof.Tests

open Sys2Proof Sys2Proof.Machine

/-! ### Helpers -/

/-- The state after reset with the word `w` at `pc`. -/
def boot (w : Nat) : State := State.reset.withFetchWord 16 w

/-- The machine of `boot` with some registers set. -/
def bootWith (w : Nat) (rs : List (Nibble × Byte)) : State := rs.foldl (fun s r => s.setReg r.1 r.2) (boot w)

/-- The machine with bytes put in memory at `a`. -/
def poke (s : State) (a : Nat) (bytes : List Byte) : State := s.copyBytes a bytes

/-- The machine with the keys of the list down and the others up. -/
def keysDown (s : State) (ks : List Nat) : State := ks.foldl (fun s k => s.setKey k true) s

/-- One step from `s` answers a next state that passes `p`. -/
def ends (s : State) (p : State → Bool) : Bool :=
  match step s with
  | .next t => p t
  | .fault _ => false
  | .refused _ => false

/-- The latches hold this fault, and `pc` is where the step began. -/
def faulted (code : BitVec 3) (info pc : Word) (t : State) : Bool :=
  t.fault && t.cause == code && t.finfo == info && t.pc == pc

/-- The set pixels among the first `w` columns of the first `h` rows, row by row. -/
def pixels (w h : Nat) (t : State) : List (Nat × Nat) :=
  (List.range h).flatMap fun y => ((List.range w).filter fun x => t.pixel x y).map fun x => (x, y)

/-! ### Well-formedness: each check refuses an ill-formed term -/

theorem test_wf_refuses_nop_of_an_instruction_word : (Instr.nop 0x00E0).wf .jpV0 = false := by decide

theorem test_wf_refuses_nop_of_b_family_under_jp_v0 : (Instr.nop 0xB300).wf .jpV0 = false := by decide

theorem test_wf_refuses_jp_v0_under_nop : (Instr.jpV0 0x300).wf .nop = false := by decide

theorem test_wf_accepts_nop_words :
    ([0x0001, 0x8128, 0xE09F, 0xF1FF].all fun op => (Instr.nop op).wf .jpV0) = true := by decide

/-! ### Decoding: the word of every constructor, written from R72 and R76 to R81 -/

theorem test_decode_cls : decodeWord .jpV0 0b0000_0000_1110_0000#16 = .cls 0x0E := by decide
theorem test_decode_cls_of_zero : decodeWord .jpV0 0b0000_0000_0000_0000#16 = .cls 0x00 := by decide
theorem test_decode_ret : decodeWord .jpV0 0b0000_0000_1110_1110#16 = .ret 0x0E := by decide
theorem test_decode_jp : decodeWord .jpV0 0b0001_1010_1011_1100#16 = .jp 0xABC := by decide
theorem test_decode_call : decodeWord .jpV0 0b0010_0011_0000_0000#16 = .call 0x300 := by decide
theorem test_decode_seImm : decodeWord .jpV0 0b0011_1010_0100_0010#16 = .seImm 0xA 0x42 := by decide
theorem test_decode_sneImm : decodeWord .jpV0 0b0100_1010_0100_0010#16 = .sneImm 0xA 0x42 := by decide
theorem test_decode_seReg : decodeWord .jpV0 0b0101_0001_0010_0111#16 = .seReg 1 2 7 := by decide
theorem test_decode_ldImm : decodeWord .jpV0 0b0110_1111_1010_1011#16 = .ldImm 0xF 0xAB := by decide
theorem test_decode_addImm : decodeWord .jpV0 0b0111_0000_1111_1111#16 = .addImm 0 0xFF := by decide
theorem test_decode_ldReg : decodeWord .jpV0 0b1000_0001_0010_0000#16 = .ldReg 1 2 := by decide
theorem test_decode_orReg : decodeWord .jpV0 0b1000_0001_0010_0001#16 = .orReg 1 2 := by decide
theorem test_decode_andReg : decodeWord .jpV0 0b1000_0001_0010_0010#16 = .andReg 1 2 := by decide
theorem test_decode_xorReg : decodeWord .jpV0 0b1000_0001_0010_0011#16 = .xorReg 1 2 := by decide
theorem test_decode_addReg : decodeWord .jpV0 0b1000_0001_0010_0100#16 = .addReg 1 2 := by decide
theorem test_decode_sub : decodeWord .jpV0 0b1000_0001_0010_0101#16 = .sub 1 2 := by decide
theorem test_decode_shr : decodeWord .jpV0 0b1000_0001_0010_0110#16 = .shr 1 2 := by decide
theorem test_decode_subn : decodeWord .jpV0 0b1000_0001_0010_0111#16 = .subn 1 2 := by decide
theorem test_decode_shl : decodeWord .jpV0 0b1000_0001_0010_1110#16 = .shl 1 2 := by decide
theorem test_decode_sneReg : decodeWord .jpV0 0b1001_0001_0010_0000#16 = .sneReg 1 2 0 := by decide
theorem test_decode_ldI : decodeWord .jpV0 0b1010_0001_0010_0011#16 = .ldI 0x123 := by decide
theorem test_decode_jpV0 : decodeWord .jpV0 0b1011_0011_0000_0000#16 = .jpV0 0x300 := by decide
theorem test_decode_b_family_under_nop : decodeWord .nop 0b1011_0011_0000_0000#16 = .nop 0xB300 := by decide
theorem test_decode_rnd : decodeWord .jpV0 0b1100_0001_0000_1111#16 = .rnd 1 0x0F := by decide
theorem test_decode_drw : decodeWord .jpV0 0b1101_0000_0001_0010#16 = .drw 0 1 2 := by decide
theorem test_decode_skp : decodeWord .jpV0 0b1110_0011_1001_1110#16 = .skp 3 9 := by decide
theorem test_decode_sknp : decodeWord .jpV0 0b1110_0011_1010_0001#16 = .sknp 3 0xA := by decide
theorem test_decode_ldVxDt : decodeWord .jpV0 0b1111_0001_0000_0111#16 = .ldVxDt 1 := by decide
theorem test_decode_ldVxK : decodeWord .jpV0 0b1111_0010_0000_1010#16 = .ldVxK 2 := by decide
theorem test_decode_ldDtVx : decodeWord .jpV0 0b1111_0001_0001_0101#16 = .ldDtVx 1 := by decide
theorem test_decode_ldStVx : decodeWord .jpV0 0b1111_0001_0001_1000#16 = .ldStVx 1 := by decide
theorem test_decode_addI : decodeWord .jpV0 0b1111_0001_0001_1110#16 = .addI 1 := by decide
theorem test_decode_ldF : decodeWord .jpV0 0b1111_0001_0010_1001#16 = .ldF 1 := by decide
theorem test_decode_ldB : decodeWord .jpV0 0b1111_0001_0011_0011#16 = .ldB 1 := by decide
theorem test_decode_storeRegs : decodeWord .jpV0 0b1111_0010_0101_0101#16 = .storeRegs 2 := by decide
theorem test_decode_loadRegs : decodeWord .jpV0 0b1111_0010_0110_0101#16 = .loadRegs 2 := by decide
theorem test_decode_nop : decodeWord .jpV0 0b1000_0001_0010_1000#16 = .nop 0x8128 := by decide

/-- R54: the first byte is the high one. -/
theorem test_decode_bytes : decodeBytes .jpV0 [0x6A, 0x2B, 0x12] = .ok (.ldImm 0xA 0x2B, [0x12]) := by decide

theorem test_decode_refuses_one_byte : decodeBytes .jpV0 [0x6A] = .error .needTwoBytes := by decide

theorem test_decode_table_word : decodeTableWord 16 0xF065 = some (.loadRegs 0) := by decide

/-- R82: the canonical spellings. -/
theorem test_assemble :
    [assemble (.cls 0), assemble (.ret 0), assemble (.seReg 1 2 7), assemble (.shr 1 2), assemble (.skp 3 0),
      assemble (.sknp 3 0)] = [0x00E0, 0x00EE, 0x5120, 0x8106, 0xE39E, 0xE3A1] := by decide

/-! ### Flow control (FL1 to FL22) -/

theorem test_fl1_jp : ends (boot 0x1ABC) (fun t => t.pc == 0x0ABC) = true := by decide

theorem test_fl3_call : ends (boot 0x2300) (fun t => t.stackAt 0 == 0x0202 && t.sp == 1 && t.pc == 0x300) = true := by
  decide

theorem test_fl5_call_overflow :
    ends { boot 0x2300 with sp := 16, dt := 5 } (fun t => faulted 2 0x200 0x200 t && t.dt == 5 && t.sp == 16) = true := by
  decide

theorem test_fl8_ret :
    ends { boot 0x012E with sp := 1, stack := (boot 0).stack.set 0 0x0456 }
      (fun t => t.sp == 0 && t.pc == 0x0456 && t.stackAt 0 == 0x0456) = true := by decide

theorem test_fl7_ret_underflow :
    ends { boot 0x00EE with dt := 5 } (fun t => faulted 3 0x200 0x200 t && t.dt == 5) = true := by decide

theorem test_fl9_seImm : ends (bootWith 0x3A42 [(0xA, 0x42)]) (fun t => t.pc == 0x204) = true := by decide

theorem test_fl10_seImm : ends (bootWith 0x3A42 [(0xA, 0x43)]) (fun t => t.pc == 0x202) = true := by decide

theorem test_fl11_sneImm : ends (bootWith 0x4A42 [(0xA, 0x42)]) (fun t => t.pc == 0x202) = true := by decide

theorem test_fl12_sneImm : ends (bootWith 0x4A42 [(0xA, 0x43)]) (fun t => t.pc == 0x204) = true := by decide

theorem test_fl14_seReg : ends (bootWith 0x5120 [(1, 7), (2, 8)]) (fun t => t.pc == 0x202) = true := by decide

theorem test_fl15_seReg : ends (bootWith 0x5127 [(1, 7), (2, 7)]) (fun t => t.pc == 0x204) = true := by decide

theorem test_fl17_sneReg : ends (bootWith 0x9120 [(1, 7), (2, 7)]) (fun t => t.pc == 0x202) = true := by decide

theorem test_fl18_sneReg : ends (bootWith 0x9120 [(1, 7), (2, 8)]) (fun t => t.pc == 0x204) = true := by decide

theorem test_fl20_jpV0 : ends (bootWith 0xBFFF [(0, 0xFF)]) (fun t => t.pc == 0x10FE) = true := by decide

theorem test_fl21_b_family_under_nop :
    ends { bootWith 0xB300 [(0, 0x10)] with config := { recommendedConfig with pBnnn := .nop } }
      (fun t => t.pc == 0x202) = true := by decide

theorem test_fl22_skip_past_the_top :
    ends (poke { boot 0 with pc := 0xFFE } 0xFFE [0x30, 0x00]) (fun t => t.pc == 0x1002 && !t.fault) = true := by decide

/-! ### Arithmetic and logic (A1 to A34) -/

theorem test_a1_ldImm : ends (boot 0x6FAB) (fun t => t.reg 15 == 0xAB) = true := by decide

theorem test_a3_addImm :
    ends (bootWith 0x70FF [(0, 5), (15, 1)]) (fun t => t.reg 0 == 4 && t.reg 15 == 1) = true := by decide

theorem test_a5_ldReg :
    ends (bootWith 0x8120 [(1, 1), (2, 0xAA), (15, 7)]) (fun t => t.reg 1 == 0xAA && t.reg 2 == 0xAA && t.reg 15 == 7)
      = true := by decide

theorem test_a6_orReg :
    ends (bootWith 0x8121 [(1, 0x0F), (2, 0xF0), (15, 7)]) (fun t => t.reg 1 == 0xFF && t.reg 15 == 7) = true := by decide

theorem test_a7_andReg :
    ends (bootWith 0x8122 [(1, 0x3C), (2, 0x0F), (15, 7)]) (fun t => t.reg 1 == 0x0C && t.reg 15 == 7) = true := by decide

theorem test_a8_xorReg :
    ends (bootWith 0x8123 [(1, 0xFF), (2, 0x0F), (15, 7)]) (fun t => t.reg 1 == 0xF0 && t.reg 15 == 7) = true := by decide

theorem test_a10_addReg :
    ends (bootWith 0x8124 [(1, 0xFE), (2, 1), (15, 1)]) (fun t => t.reg 1 == 0xFF && t.reg 15 == 0) = true := by decide

theorem test_a15_addReg_of_flag : ends (bootWith 0x8FF4 [(15, 0x90)]) (fun t => t.reg 15 == 0x20) = true := by decide

theorem test_a17_sub :
    ends (bootWith 0x8125 [(1, 3), (2, 5)]) (fun t => t.reg 1 == 0xFE && t.reg 15 == 0) = true := by decide

theorem test_a21_sub_into_flag : ends (bootWith 0x8F15 [(15, 5), (1, 3)]) (fun t => t.reg 15 == 2) = true := by decide

theorem test_a23_subn :
    ends (bootWith 0x8127 [(1, 3), (2, 5)]) (fun t => t.reg 1 == 2 && t.reg 15 == 1) = true := by decide

theorem test_a24_subn :
    ends (bootWith 0x8127 [(1, 5), (2, 3)]) (fun t => t.reg 1 == 0xFE && t.reg 15 == 0) = true := by decide

theorem test_a26_shr :
    ends (bootWith 0x8126 [(1, 5), (2, 0xFF)]) (fun t => t.reg 1 == 2 && t.reg 15 == 1 && t.reg 2 == 0xFF) = true := by
  decide

theorem test_a29_shr_of_flag : ends (bootWith 0x8F06 [(15, 0xFF)]) (fun t => t.reg 15 == 0) = true := by decide

theorem test_a30_shl :
    ends (bootWith 0x812E [(1, 0x81), (2, 0xFF)]) (fun t => t.reg 1 == 2 && t.reg 15 == 1 && t.reg 2 == 0xFF) = true := by
  decide

theorem test_a33_shl_of_flag : ends (bootWith 0x8F0E [(15, 0x80)]) (fun t => t.reg 15 == 2) = true := by decide

/-! ### Index and random (I1 to I8) -/

theorem test_i1_ldI : ends (boot 0xA123) (fun t => t.I == 0x0123) = true := by decide

theorem test_i2_addI :
    ends { bootWith 0xF11E [(1, 1), (15, 7)] with I := 0x0FFF } (fun t => t.I == 0x1000 && t.reg 15 == 7) = true := by
  decide

theorem test_i3_addI_wraps : ends { bootWith 0xF11E [(1, 2)] with I := 0xFFFF } (fun t => t.I == 1) = true := by decide

theorem test_i4_ldF : ends (bootWith 0xF129 [(1, 0x0A)]) (fun t => t.I == 0x0082) = true := by decide

theorem test_i5_ldF_not_masked : ends (bootWith 0xF129 [(1, 0xFF)]) (fun t => t.I == 0x054B) = true := by decide

theorem test_i6_rnd :
    ends ((boot 0xC10F).offerDraws [0xA7, 0x55]) (fun t => t.reg 1 == 0x07 && t.draws == [0x55]) = true := by decide

/-! ### Display (DR1 to DR12) -/

theorem test_dr2_drw :
    ends (poke { bootWith 0xD012 [(0, 0x42), (1, 0x21)] with I := 0x300 } 0x300 [0xF0, 0x90])
      (fun t => pixels 16 6 t == [(2, 1), (3, 1), (4, 1), (5, 1), (2, 2), (5, 2)] && t.reg 15 == 0) = true := by decide

theorem test_dr6_drw_off_screen :
    ends (poke { bootWith 0xD011 [(0, 61), (15, 7)] with I := 0x300, dt := 3 } 0x300 [0xF0])
      (fun t => faulted 5 0x200 0x200 t && t.fb == State.reset.fb && t.reg 15 == 7 && t.dt == 3) = true := by decide

theorem test_dr9_cls :
    ends { bootWith 0x00E0 [(15, 1)] with fb := ((boot 0).fb.set 0 1).set 31 0x8000000000000000 }
      (fun t => t.fb == State.reset.fb && t.reg 15 == 1 && t.pc == 0x202) = true := by decide

/-! ### Keypad and timers (K1 to K12, T1 to T7) -/

theorem test_k1_skp : ends (keysDown (bootWith 0xE39E [(3, 10)]) [10]) (fun t => t.pc == 0x204) = true := by decide

theorem test_k5_skp_range : ends (bootWith 0xE39E [(3, 0x10)]) (faulted 6 0x0010 0x200) = true := by decide

theorem test_k3_sknp : ends (keysDown (bootWith 0xE3A1 [(3, 10)]) [10]) (fun t => t.pc == 0x202) = true := by decide

theorem test_k6_sknp_range : ends (bootWith 0xE3A1 [(3, 0xFF)]) (faulted 6 0x00FF 0x200) = true := by decide

theorem test_k9_ldVxK_waits :
    ends { bootWith 0xF20A [(2, 0x55)] with dt := 2 } (fun t => t.pc == 0x200 && t.dt == 1 && t.reg 2 == 0x55) = true := by
  decide

theorem test_k11_ldVxK : ends (keysDown (boot 0xF20A) [7, 3]) (fun t => t.reg 2 == 3 && t.pc == 0x202) = true := by decide

theorem test_t1_ldVxDt : ends { boot 0xF107 with dt := 0x20 } (fun t => t.reg 1 == 0x20 && t.dt == 0x1F) = true := by
  decide

theorem test_t3_ldDtVx : ends (bootWith 0xF115 [(1, 0x20)]) (fun t => t.dt == 0x1F) = true := by decide

theorem test_t5_ldDtVx_zero : ends { bootWith 0xF115 [(1, 0)] with dt := 9 } (fun t => t.dt == 0) = true := by decide

theorem test_t6_ldStVx : ends (bootWith 0xF118 [(1, 0xFF)]) (fun t => t.st == 0xFE && t.soundActive) = true := by decide

theorem test_t7_ldStVx : ends (bootWith 0xF118 [(1, 1)]) (fun t => t.st == 0 && !t.soundActive) = true := by decide

/-! ### Memory block transfer (M1 to M16) -/

theorem test_m5_ldB :
    ends { bootWith 0xF133 [(1, 0xC7)] with I := 0xFFD }
      (fun t => [t.byteAt 0xFFD, t.byteAt 0xFFE, t.byteAt 0xFFF] == [1, 9, 9] && t.I == 0xFFD) = true := by decide

theorem test_m6_ldB_range :
    ends { bootWith 0xF133 [(1, 0xC7)] with I := 0xFFE }
      (fun t => faulted 4 0x1000 0x200 t && t.byteAt 0xFFE == 0 && t.byteAt 0xFFF == 0) = true := by decide

theorem test_m9_storeRegs :
    ends { bootWith 0xF255 [(0, 0x11), (1, 0x22), (2, 0x33), (3, 0x44)] with I := 0x400 }
      (fun t => [t.byteAt 0x400, t.byteAt 0x401, t.byteAt 0x402, t.byteAt 0x403] == [0x11, 0x22, 0x33, 0] &&
        t.I == 0x400) = true := by decide

theorem test_m12_storeRegs_range :
    ends { bootWith 0xFF55 [(0, 1), (15, 0x0F)] with I := 0xFF1 }
      (fun t => faulted 4 0x1000 0x200 t && t.byteAt 0xFF1 == 0) = true := by decide

theorem test_m13_loadRegs :
    ends (poke { bootWith 0xF265 [(3, 0x99)] with I := 0x400 } 0x400 [0x0A, 0x0B, 0x0C, 0x0D])
      (fun t => [t.reg 0, t.reg 1, t.reg 2, t.reg 3] == [0x0A, 0x0B, 0x0C, 0x99] && t.I == 0x400) = true := by decide

theorem test_m15_loadRegs_range :
    ends (poke { bootWith 0xF165 [(0, 5)] with I := 0xFFF } 0xFFF [0x77])
      (fun t => faulted 4 0x1000 0x200 t && t.reg 0 == 5) = true := by decide

/-! ### No-op space, fetch, reset, host (NP1 to NP6, X1 to X14, P3) -/

theorem test_np1_nop :
    ends { bootWith 0x8128 [(1, 1), (2, 2), (15, 3)] with dt := 2 }
      (fun t => t.pc == 0x202 && t.dt == 1 && t.reg 1 == 1 && t.reg 2 == 2 && t.reg 15 == 3) = true := by decide

theorem test_np3_nop_indexes_no_key : ends (bootWith 0xE09F [(0, 0x20)]) (fun t => t.pc == 0x202 && !t.fault) = true := by
  decide

theorem test_x2_fetch_range :
    ends { boot 0 with pc := 0x0FFF, dt := 4 } (fun t => faulted 1 0x0FFF 0x0FFF t && t.dt == 4) = true := by decide

theorem test_x1_fetch_at_the_top :
    ends (poke { boot 0 with pc := 0x0FFE } 0xFFE [0x12, 0x00]) (fun t => t.pc == 0x200 && !t.fault) = true := by decide

theorem test_x7_unaligned_fetch :
    ends (poke { boot 0 with pc := 0x203 } 0x203 [0x61, 0x2A]) (fun t => t.reg 1 == 0x2A && t.pc == 0x205) = true := by
  decide

theorem test_x9_reset_font :
    [State.reset.byteAt 0x04F, State.reset.byteAt 0x050, State.reset.byteAt 0x09F, State.reset.byteAt 0x0A0]
      = [0x00, 0xF0, 0x80, 0x00] := by decide

theorem test_x10_load_of_nothing : State.reset.load [] = State.reset := by decide

theorem test_x11_load :
    [(State.reset.load [0x00, 0xE0]).byteAt 0x200, (State.reset.load [0x00, 0xE0]).byteAt 0x201] = [0x00, 0xE0] := by
  decide

theorem test_history_and_latch :
    ends { boot 0x6FAB with history := [0x00E0] } (fun t => t.history == [0x00E0, 0x6FAB] && t.op == 0x6FAB) = true := by
  decide

/-! ### Witnesses: the hypotheses of the statements, clause by clause -/

theorem witness_decode_encode :
    (Instr.nop 0x00E1).wf .jpV0 = true ∧ (Instr.nop 0xBFFF).wf .nop = true ∧ (Instr.jpV0 0xFFF).wf .jpV0 = true ∧
      (Instr.drw 15 15 15).wf .nop = true := by decide

theorem witness_opcode_rows :
    ∃ r₁ ∈ opcodeRows .nop, ∃ r₂ ∈ opcodeRows .nop, r₁.selects 0x8124 = true ∧ r₂.selects 0x8124 = true := by decide

theorem witness_step_faulted : { State.reset with fault := true, cause := 1 }.fault = true := by decide

theorem witness_step_unfetchable :
    { State.reset with pc := 0xFFF }.fault = false ∧ { State.reset with pc := 0xFFF }.pc.toNat > 0xFFE := by decide

/-- At the highest fetchable `pc`, a handler that faults: `RET` on an empty stack. -/
theorem witness_step_handler_faults :
    let s := poke { State.reset with pc := 0xFFE } 0xFFE [0x00, 0xEE]
    s.fault = false ∧ s.pc.toNat ≤ 0xFFE ∧
      decodeBytes s.config.pBnnn [s.byteAt s.pc.toNat, s.byteAt (s.pc.toNat + 1)] = .ok (.ret 0x0E, []) ∧
      ∃ t, exec (.ret 0x0E) { s with pc := s.pc + 2 } = .next t ∧ t.fault = true :=
  ⟨by decide, by decide, by decide, _, rfl, by decide⟩

theorem witness_step_handler_completes :
    (boot 0x6FAB).fault = false ∧ (boot 0x6FAB).pc.toNat ≤ 0xFFE ∧
      decodeBytes (boot 0x6FAB).config.pBnnn [(boot 0x6FAB).byteAt 0x200, (boot 0x6FAB).byteAt 0x201]
        = .ok (.ldImm 15 0xAB, []) ∧
      ∃ t, exec (.ldImm 15 0xAB) { boot 0x6FAB with pc := 0x202 } = .next t ∧ t.fault = false :=
  ⟨by decide, by decide, by decide, _, rfl, by decide⟩

theorem witness_fault_entry : (boot 0x00EE).fault = false ∧ ∃ t, step (boot 0x00EE) = .next t ∧ t.fault = true :=
  ⟨by decide, _, rfl, by decide⟩

theorem witness_fault_of_call :
    ∃ t, exec (.call 0x300) { State.reset with sp := 16 } = .next t ∧ t.fault = true := ⟨_, rfl, by decide⟩

theorem witness_fault_of_ret : ∃ t, exec (.ret 0) State.reset = .next t ∧ t.fault = true := ⟨_, rfl, by decide⟩

theorem witness_fault_of_memory :
    ∃ t, exec (.loadRegs 15) { State.reset with I := 0xFF1 } = .next t ∧ t.fault = true ∧ t.finfo = 0x1000 :=
  ⟨_, rfl, by decide⟩

theorem witness_fault_of_screen :
    ∃ t, exec (.drw 0 1 1) (poke { State.reset.setReg 0 61 with I := 0x300 } 0x300 [0xF0]) = .next t ∧
      t.fault = true ∧ t.cause = 5 := ⟨_, rfl, by decide⟩

theorem witness_fault_of_key :
    (∃ t, exec (.skp 0 0) (State.reset.setReg 0 16) = .next t ∧ t.fault = true) ∧
      ∃ t, exec (.sknp 0 0) (State.reset.setReg 0 16) = .next t ∧ t.fault = true :=
  ⟨⟨_, rfl, by decide⟩, _, rfl, by decide⟩

/-- A step that writes a timer, and one that does not, both from a timer that is not zero. -/
theorem witness_timers :
    (∃ t, step { bootWith 0xF115 [(1, 1)] with dt := 9 } = .next t ∧ t.fault = false) ∧
      { bootWith 0xF115 [(1, 1)] with dt := 9 }.fetchInstr = .ldDtVx 1 ∧
      { bootWith 0xF118 [(1, 0)] with dt := 9 }.fetchInstr = .ldStVx 1 ∧
      { boot 0xF107 with dt := 9 }.fetchInstr = .ldVxDt 1 ∧ { boot 0x00E0 with dt := 1 }.fetchInstr = .cls 0x0E :=
  ⟨⟨_, rfl, by decide⟩, by decide⟩

/-- The log below its depth, at it, and in a step that faults. -/
theorem witness_history :
    (∃ t, step { boot 0x00E0 with history := List.replicate 49 0 } = .next t ∧ t.fault = false ∧ t.history.length = 50) ∧
      (∃ t, step { boot 0x00E0 with history := List.replicate 50 0 } = .next t ∧ t.fault = false ∧ t.history.length = 50) ∧
      ∃ t, step { boot 0x00EE with history := List.replicate 50 0 } = .next t ∧ t.fault = true :=
  ⟨⟨_, rfl, by decide⟩, ⟨_, rfl, by decide⟩, _, rfl, by decide⟩

theorem witness_nop :
    (boot 0x8128).fault = false ∧ (boot 0x8128).pc.toNat ≤ 0xFFE ∧ (boot 0x8128).fetchInstr = .nop 0x8128 := by decide

theorem witness_call :
    { State.reset with sp := 15 }.sp.val < 16 ∧ { State.reset with sp := 16 }.sp.val = 16 := by decide

theorem witness_ret : 0 < { State.reset with sp := 1 }.sp.val ∧ State.reset.sp.val = 0 := by decide

theorem witness_skip :
    State.reset.reg 0 = 0 ∧ State.reset.reg 0 ≠ 1 ∧ State.reset.reg 0 = State.reset.reg 1 ∧
      (State.reset.setReg 0 1).reg 0 ≠ (State.reset.setReg 0 1).reg 1 := by decide

theorem witness_b_family :
    (0xBFFF : Word) &&& 0xF000 = 0xB000 ∧ State.reset.config.pBnnn = .jpV0 ∧
      (State.resetWith { recommendedConfig with pBnnn := .nop }).config.pBnnn = .nop := by decide

/-- `CALL 0x300`, with a `RET` at its target, the word written as R77 has it. -/
theorem witness_call_then_return :
    let s := poke (boot 0x2300) 0x300 [0x00, 0xEE]
    s.fault = false ∧ s.pc.toNat ≤ 0xFFE ∧ s.fetchInstr = .call 0x300 ∧ s.sp.val < 16 ∧
      ∃ t, step s = .next t ∧ t.pc.toNat ≤ 0xFFE ∧ t.fetchInstr = .ret 0x0E :=
  ⟨by decide, by decide, by decide, by decide, _, rfl, by decide⟩

theorem witness_flag_not_destination : (14 : Nibble) ≠ 15 ∧ (15 : Nibble) = 15 := by decide

theorem witness_random_port :
    ((boot 0xC1FF).offerDraws [0xA7]).draws = 0xA7 :: [] ∧ (boot 0xC1FF).draws = [] := by decide

theorem witness_selected_words :
    (0x012E : Word) &&& 0xF00F = 0x000E ∧ (0x812E : Word) &&& 0xF00F = 0x800E ∧
      (0xEFF1 : Word) &&& 0xF00F = 0xE001 ∧ (0xFF65 : Word) &&& 0xF0FF = 0xF065 ∧
      (0xDFFF : Word) &&& 0xF000 = 0xD000 := by decide

/-! The screen and the sprite of DR4: a sprite byte `0x80` at `0x300`. -/

/-- The sprite byte `0x80` at `0x300`, `I` there, every register 0. -/
def dot : State := poke { State.reset with I := 0x300 } 0x300 [0x80]

theorem dot_byte : dot.byteAt (dot.I.toNat + 0) = 0x80 := by decide

/-- At the last pixel of the screen one row with its one bit fits; DR8's second row does not. -/
theorem witness_draw_fits :
    ∀ row, row < (1 : Nibble).toNat → SpriteRowFits ((dot.setReg 0 63).setReg 1 31) 0 1 row := by
  intro row hrow
  obtain rfl : row = 0 := by have : row < 1 := hrow; omega
  refine ⟨by decide, ?_⟩
  unfold SpriteBitSet
  decide

theorem witness_draw_covers :
    SpriteCovers dot 0 1 1 0 0 ∧ { dot with fb := dot.fb.set 0 1 }.pixel 0 0 = true ∧
      ¬ ∃ px py, SpriteCovers dot 0 1 1 px py ∧ dot.pixel px py = true := by
  refine ⟨⟨0, 0, by decide, by decide, by unfold SpriteBitSet; decide, by decide, by decide⟩, by decide, ?_⟩
  rintro ⟨px, py, ⟨row, col, hrow, hcol, -, hx, hy⟩, hp⟩
  obtain rfl : row = 0 := by have : row < 1 := hrow; omega
  have hzero : ∀ c, c < 8 → dot.pixel ((dot.reg 0).toNat % 64 + c) ((dot.reg 1).toNat % 32 + 0) = false := by decide
  rw [hx, hy, hzero col hcol] at hp
  cases hp

/-- The row past the last address of memory, and the row whose bit lies right of the screen. -/
theorem witness_draw_does_not_fit :
    (¬ SpriteRowFits { State.reset with I := 0x1000 } 0 1 0 ∧ ({ State.reset with I := 0x1000 }.I.toNat + 0 > 0xFFF)) ∧
      ¬ SpriteRowFits (poke { State.reset.setReg 0 63 with I := 0xFFF } 0xFFF [0x40]) 0 1 0 ∧
      (poke { State.reset.setReg 0 63 with I := 0xFFF } 0xFFF [0x40]).I.toNat + 0 ≤ 0xFFF := by
  refine ⟨⟨fun h => absurd h.1 (by decide), by decide⟩, fun h => ?_, by decide⟩
  have := (h.2 1 (by decide) (by unfold SpriteBitSet; decide)).1
  revert this
  decide

/-- DR11: the first row fits, the second does not. -/
theorem witness_draw_second_row :
    (∀ r, r < 1 → SpriteRowFits { State.reset with I := 0xFFF } 0 1 r) ∧
      ¬ SpriteRowFits { State.reset with I := 0xFFF } 0 1 1 := by
  refine ⟨fun r hr => ?_, fun h => absurd h.1 (by decide)⟩
  obtain rfl : r = 0 := by omega
  refine ⟨by decide, ?_⟩
  unfold SpriteBitSet
  decide

theorem witness_draw_twice :
    (0 : Nibble) ≠ 15 ∧ (1 : Nibble) ≠ 15 ∧ ∃ t, exec (.drw 0 1 1) dot = .next t ∧ t.fault = false ∧
      t.pixel 0 0 ≠ dot.pixel 0 0 :=
  ⟨by decide, by decide, _, rfl, by decide⟩

theorem witness_key_number :
    ((State.reset.setReg 0 15).reg 0).toNat ≤ 15 ∧ (keysDown State.reset [15]).keys[15]? = some true ∧
      State.reset.keys[15]? = some false ∧ ((State.reset.setReg 0 16).reg 0).toNat > 15 := by decide

/-- The least key alone, the greatest key alone, and none. -/
theorem witness_keys :
    (keysDown State.reset [0, 7]).keys[0]? = some true ∧
      ((keysDown State.reset [15]).keys[15]? = some true ∧
        ∀ j, j < 15 → (keysDown State.reset [15]).keys[j]? = some false) ∧
      ∀ k, k < 16 → State.reset.keys[k]? = some false := by decide

theorem witness_key_wait :
    (boot 0xF20A).fault = false ∧ (boot 0xF20A).pc.toNat ≤ 0xFFE ∧ (boot 0xF20A).fetchInstr = .ldVxK 2 ∧
      ∀ k, k < 16 → (boot 0xF20A).keys[k]? = some false := by decide

theorem witness_timer_instructions :
    (boot 0xF107).fault = false ∧ (boot 0xF107).pc.toNat ≤ 0xFFE ∧ (boot 0xF107).fetchInstr = .ldVxDt 1 ∧
      (boot 0xF115).fetchInstr = .ldDtVx 1 ∧ (boot 0xF118).fetchInstr = .ldStVx 1 := by decide

theorem witness_bcd :
    Memory.wf State.reset.config State.reset.mem = true ∧ { State.reset with I := 0xFFD }.I.toNat ≤ 0xFFD ∧
      { State.reset with I := 0xFFE }.I.toNat > 0xFFD := by decide

/-- Both sides of the limit of a block transfer of all 16 registers, and memory that is not empty. -/
theorem witness_block :
    Memory.wf dot.config dot.mem = true ∧ { dot with I := 0xFF0 }.I.toNat + (15 : Nibble).toNat ≤ 0xFFF ∧
      { dot with I := 0xFF1 }.I.toNat + (15 : Nibble).toNat > 0xFFF := by decide

/-- A dump, every register then overwritten or not: `u` is the state after the dump. -/
theorem witness_dump_then_load :
    Memory.wf dot.config dot.mem = true ∧ dot.I.toNat + (3 : Nibble).toNat ≤ 0xFFF ∧
      ∃ t, exec (.storeRegs 3) dot = .next t ∧ (t.setReg 0 7).I = dot.I ∧
        ∀ a, (t.setReg 0 7).byteAt a = t.byteAt a :=
  ⟨by decide, by decide, _, rfl, by decide, fun _ => rfl⟩

theorem witness_memory_range : (0xFFF : Nat) ≤ 0xFFF ∧ (0x1000 : Nat) > 0xFFF := by decide

theorem witness_equal_memories :
    Memory.wf recommendedConfig [(0x200, 0x6A), (0xFFF, 1)] = true ∧
      ∀ a, Memory.get recommendedConfig [(0x200, 0x6A), (0xFFF, 1)] a
        = Memory.get recommendedConfig [(0x200, 0x6A), (0xFFF, 1)] a :=
  ⟨by decide, fun _ => rfl⟩

theorem witness_store_fetched :
    { State.reset with pc := 0xFFE }.pc.toNat = 0xFFE ∧ { State.reset with pc := 0xFFE }.pc.toNat + 1 = 0xFFF := by decide

theorem witness_memory_changes :
    ∃ t, exec (.ldB 0) ((dot.setReg 0 0xFF)) = .next t ∧ ∃ a, t.byteAt a ≠ (dot.setReg 0 0xFF).byteAt a :=
  ⟨_, rfl, 0x301, by decide⟩

theorem witness_stack_changes :
    ∃ t, exec (.call 0x300) State.reset = .next t ∧ t.sp ≠ State.reset.sp ∧ t.stack ≠ State.reset.stack :=
  ⟨_, rfl, by decide⟩

theorem witness_screen_changes : ∃ t, exec (.drw 0 1 1) dot = .next t ∧ t.fb ≠ dot.fb := ⟨_, rfl, by decide⟩

theorem witness_index_changes : ∃ t, exec (.ldF 0) State.reset = .next t ∧ t.I ≠ State.reset.I := ⟨_, rfl, by decide⟩

/-- The flag changes as a side effect, and as the destination. -/
theorem witness_flag_changes :
    (∃ t, exec (.sub 0 1) State.reset = .next t ∧ t.reg 15 ≠ State.reset.reg 15) ∧
      ∃ t, exec (.ldImm 15 2) State.reset = .next t ∧ t.reg 15 ≠ State.reset.reg 15 :=
  ⟨⟨_, rfl, by decide⟩, _, rfl, by decide⟩

theorem witness_random_changes :
    ∃ t, exec (.rnd 0 0) State.reset = .next t ∧ t.drawCount ≠ State.reset.drawCount := ⟨_, rfl, by decide⟩

theorem witness_keypad_blind :
    (∀ x mid, Instr.cls 0 ≠ .skp x mid) ∧ (∀ x mid, Instr.cls 0 ≠ .sknp x mid) ∧ (∀ x, Instr.cls 0 ≠ .ldVxK x) ∧
      ∃ t, exec (.cls 0) State.reset = .next t := ⟨by decide, by decide, by decide, _, rfl⟩

/-- The invariant holds of a machine with a program, a return address on the stack and a full log. -/
theorem witness_invariant :
    ({ poke (boot 0x00EE) 0x300 [1, 2] with
        sp := 1, stack := (boot 0).stack.set 0 0x1000, history := List.replicate 50 0 } : State).Inv where
  memory := by decide
  history := by decide
  pc := by decide
  pcWithoutJpV0 := by decide
  stack := by decide
  clear := by decide
  caused := by decide

theorem witness_invariant_step : ∃ t, step (boot 0x2300) = .next t := ⟨_, rfl⟩

theorem witness_reachable : Reachable .running ((State.reset.setKeys keysBeforeHost).load [0x12, 0x00]) :=
  .load _ _ (.new recommendedConfig keysBeforeHost)

theorem witness_reset_and_renew : ∃ s : State, s = (boot 0x2300).renew ∧ recommendedConfig = (boot 0x2300).config :=
  ⟨_, rfl, by decide⟩

theorem witness_reset_addresses :
    (79 : Nat) < 80 ∧ 0x04F < State.reset.config.fontBase.val ∧ State.reset.config.fontBase.val + 80 ≤ 0x0A0 := by decide

theorem witness_load :
    State.reset.fault = false ∧ (List.replicate 3584 (0xAA : Byte)).length ≤ 3584 ∧
      (List.replicate 3585 (0xAA : Byte)).length > 3584 ∧ (List.replicate 1 (0xAA : Byte))[0]? = some 0xAA := by
  simp only [List.length_replicate]
  decide

theorem witness_empty_run : (1792 : Nat) ≤ 1792 ∧ (0 : Nat) ≤ 1792 := by decide

theorem witness_ports :
    (63 : Nat) < 64 ∧ (31 : Nat) < 32 ∧ { dot with fb := dot.fb.set 31 0x8000000000000000 }.pixel 63 31 = true ∧
      dot.pixel 63 31 = false := by decide

end Sys2Proof.Tests
end

section
/-! SUPPORT. The other direction of the no-op space (30_encoding.md R75, R81): the decoder gives only well-formed
instructions, family by family, so a word that decodes to `NOP` is in the table of R81. -/

namespace Sys2Proof.Laws

theorem decode0_wf (p : PBnnn) (op : Word) (ht : topNibble op = 0x0#4) : (decode0 op).wf p = true := by
  unfold topNibble at ht
  unfold decode0 fieldN
  split
  · rfl
  · rfl
  · simp_all [Instr.wf, isNopWord]

/-- The keys of family `0x8` with no instruction (R78). -/
theorem mem_nopKeys8_of_notMem : ∀ n : Nibble, n ∉ [0x0#4, 0x1#4, 0x2#4, 0x3#4, 0x4#4, 0x5#4, 0x6#4, 0x7#4, 0xE#4] →
    n ∈ [0x8#4, 0x9#4, 0xA#4, 0xB#4, 0xC#4, 0xD#4, 0xF#4] := by decide

theorem decode8_wf (p : PBnnn) (op : Word) (ht : topNibble op = 0x8#4) : (decode8 op).wf p = true := by
  unfold topNibble at ht
  unfold decode8 fieldN
  split
  case h_10 =>
    have hkey := mem_nopKeys8_of_notMem (op.extractLsb' 0 4) (by simp_all)
    simp_all [Instr.wf, isNopWord]
  all_goals rfl

theorem decodeE_wf (p : PBnnn) (op : Word) (ht : topNibble op = 0xE#4) : (decodeE op).wf p = true := by
  unfold topNibble at ht
  unfold decodeE fieldN
  split
  · rfl
  · rfl
  · simp_all [Instr.wf, isNopWord]

theorem decodeF_wf (p : PBnnn) (op : Word) (ht : topNibble op = 0xF#4) : (decodeF op).wf p = true := by
  unfold topNibble at ht
  unfold decodeF fieldNN
  split
  case h_10 => simp_all [Instr.wf, isNopWord]
  all_goals rfl

/-- The top nibble the decoder takes as its default. -/
theorem eq_fifteen_of_ne : ∀ n : Nibble, n ∉ [0x0#4, 0x1#4, 0x2#4, 0x3#4, 0x4#4, 0x5#4, 0x6#4, 0x7#4, 0x8#4, 0x9#4,
    0xA#4, 0xB#4, 0xC#4, 0xD#4, 0xE#4] → n = 0xF#4 := by decide

/-- Every word decodes to a well-formed instruction (R75): an arm with an instruction has nothing to show, an arm that
answers `NOP` is a row of R81. -/
theorem decodeWord_wf (p : PBnnn) (op : Word) : (decodeWord p op).wf p = true := by
  unfold decodeWord
  split
  case h_1 ht => exact decode0_wf p op ht
  case h_9 ht => exact decode8_wf p op ht
  case h_12 ht =>
    cases p with
    | jpV0 => rfl
    | nop =>
      unfold topNibble at ht
      simp [Instr.wf, isNopWord, ht]
  case h_15 ht => exact decodeE_wf p op ht
  case h_16 => exact decodeF_wf p op (eq_fifteen_of_ne _ (by simp_all))
  all_goals rfl

theorem decodeWord_eq_nop_iff (p : PBnnn) (op : Word) : decodeWord p op = .nop op ↔ isNopWord p op = true := by
  constructor
  · intro h
    have hwf := decodeWord_wf p op
    rw [h] at hwf
    exact hwf
  · exact decodeWord_of_isNopWord p op

/-- The check `isNopWord` is the table of R81. -/
theorem isNopWord_iff (p : PBnnn) (op : Word) : isNopWord p op = true ↔
    (op.extractLsb' 12 4 = 0x0#4 ∧ op.extractLsb' 0 4 ∉ [0x0#4, 0xE#4]) ∨
    (op.extractLsb' 12 4 = 0x8#4 ∧ op.extractLsb' 0 4 ∈ [0x8#4, 0x9#4, 0xA#4, 0xB#4, 0xC#4, 0xD#4, 0xF#4]) ∨
    (op.extractLsb' 12 4 = 0xE#4 ∧ op.extractLsb' 0 4 ∉ [0x1#4, 0xE#4]) ∨
    (op.extractLsb' 12 4 = 0xF#4 ∧
      op.extractLsb' 0 8 ∉ [0x07#8, 0x0A#8, 0x15#8, 0x18#8, 0x1E#8, 0x29#8, 0x33#8, 0x55#8, 0x65#8]) ∨
    (op.extractLsb' 12 4 = 0xB#4 ∧ p = .nop) := by
  simp only [isNopWord, Bool.or_eq_true, Bool.and_eq_true, Bool.not_eq_true', beq_iff_eq, List.contains_iff_mem,
    ← Bool.not_eq_true, or_assoc]

end Sys2Proof.Laws
end

section
/-! SUPPORT. What a step on a no-op word does (40_cycle_and_dispatch.md R94, R95): frames compose, so the frame of a step
is that of the advance, of the handler (here none) and of what follows it. -/

namespace Sys2Proof.Machine

theorem StatePart.same_trans {p : StatePart} {s t u : State} (h : p.same s t) (h' : p.same t u) : p.same s u := by
  cases p
  case memory => exact fun a => (h' a).trans (h a)
  case registers => exact fun r => (h' r).trans (h r)
  case latches =>
    obtain ⟨hf, hc, hi⟩ := h
    obtain ⟨hf', hc', hi'⟩ := h'
    exact ⟨hf'.trans hf, hc'.trans hc, hi'.trans hi⟩
  case random =>
    obtain ⟨hd, hn⟩ := h
    obtain ⟨hd', hn'⟩ := h'
    exact ⟨hd'.trans hd, hn'.trans hn⟩
  all_goals exact Eq.trans h' h

theorem Frame.refl (xs : List StatePart) (s : State) : Frame xs s s := by
  intro p _
  cases p <;> simp [StatePart.same]

/-- Two changes one after the other write what either of them writes. -/
theorem Frame.trans {xs ys : List StatePart} {s t u : State} (h : Frame xs s t) (h' : Frame ys t u) :
    Frame (xs ++ ys) s u := by
  intro p hp
  rw [List.mem_append, not_or] at hp
  exact StatePart.same_trans (h p hp.1) (h' p hp.2)

theorem advance_frame (s : State) : Frame [.pc] s s.advance := by
  intro p hp
  cases p <;> simp_all [StatePart.same]

/-- What follows the handler (R94, R96) writes the timers, the latch and the log, or nothing after a fault. -/
theorem finish_frame (t : State) (op : Word) : Frame [.dt, .st, .op, .history] t (t.finish op) := by
  intro p hp
  by_cases hf : t.fault = true
  · rw [finish_of_fault op hf]
    exact Frame.refl _ t p hp
  · rw [finish_of_ok op (by simpa using hf)]
    cases p <;> simp_all [StatePart.same]

/-- A tick in numbers: one lower, or still 0 (R94). -/
@[simp] theorem toNat_tickByte (v : Byte) : (tickByte v).toNat = v.toNat - 1 := by
  unfold tickByte
  split
  · simp_all
  · bv_omega

theorem exec_nop (op : Word) (s : State) : exec (.nop op) s = .next s := rfl

theorem step_of_nop {op : Word} {s : State} (hf : s.fault = false) (hpc : s.pc.toNat ≤ 0xFFE)
    (hi : s.fetchInstr = .nop op) : step s = .next (s.advance.finish s.fetchWord) :=
  step_of_exec hf ((canFetch_iff s).mpr hpc) (by rw [hi, exec_nop])

/-- Settles O12: the table of R81 is what `decodeWord` sends to `NOP`, whose handler is the identity, so that a step is
the advance followed by the record and the tick. -/
theorem nopSpaceOnlyAdvances : Obligations.NopSpaceOnlyAdvances := by
  refine ⟨fun p op => ?_, fun op s => ⟨s, exec_nop op s, Frame.refl [] s⟩, fun op s hf hpc hi => ?_⟩
  · rw [Laws.decodeWord_eq_nop_iff, Laws.isNopWord_iff]
  · have hfin := finish_of_ok (t := s.advance) s.fetchWord hf
    refine ⟨_, step_of_nop hf hpc hi, ?_, ?_, ?_, (advance_frame s).trans (finish_frame _ _)⟩ <;>
    · rw [hfin]
      simp

end Sys2Proof.Machine
end

section
/-! SUPPORT. The timers in a step that does not fault (40_cycle_and_dispatch.md R94): such a step is a handler's effect
followed by the record and the tick, and of all handlers only `LD DT, Vx` writes `dt`, only `LD ST, Vx` writes `st`. -/

namespace Sys2Proof.Machine

/-- The inversion of a step that completes: the handler has its effect on the advanced state, then the opcode is kept
and the timers tick. -/
theorem step_inv_of_ok {s t : State} (hs : s.fault = false) (h : step s = .next t) (ht : t.fault = false) :
    ∃ u, Handled s.fetchInstr s.advance u ∧
      t = ((u.record s.fetchWord).setDt (tickByte u.dt)).setSt (tickByte u.st) := by
  rcases step_cases s with ⟨hs', -⟩ | ⟨-, f, -, hstep⟩ | ⟨-, -, u, hu, -, -, hstep⟩
  · simp [hs] at hs'
  · obtain rfl : s.takeFault f = t := by simpa [hstep] using h
    simp at ht
  · exact ⟨u, hu, by simpa [hstep] using h.symm⟩

theorem dt_mem_writes_iff (i : Instr) : .dt ∈ writes i ↔ ∃ x, i = .ldDtVx x := by
  cases i <;> simp [writes]

theorem st_mem_writes_iff (i : Instr) : .st ∈ writes i ↔ ∃ x, i = .ldStVx x := by
  cases i <;> simp [writes]

theorem Handled.dt_eq {i : Instr} {s t : State} (h : Handled i s t) (hi : ∀ x, i ≠ .ldDtVx x) : t.dt = s.dt :=
  h.frame .dt (by simpa [dt_mem_writes_iff] using hi)

theorem Handled.st_eq {i : Instr} {s t : State} (h : Handled i s t) (hi : ∀ x, i ≠ .ldStVx x) : t.st = s.st :=
  h.frame .st (by simpa [st_mem_writes_iff] using hi)

/-- Settles O10: each timer ends as the tick of what the handler left in it, which is the register for the instruction
that writes the timer and the old value for every other; the tick leaves `Vx` alone. -/
theorem timersTickOncePerStep : Obligations.TimersTickOncePerStep := by
  intro s t hs hstep ht
  obtain ⟨u, hu, rfl⟩ := step_inv_of_ok hs hstep ht
  refine ⟨fun x hi => ?_, fun hi => ?_, fun x hi => ?_, fun hi => ?_, fun x hi => ?_⟩
  · obtain rfl : u = s.advance.setDt (s.advance.reg x) := by rwa [hi] at hu
    simp
  · simp [hu.dt_eq hi]
  · obtain rfl : u = s.advance.setSt (s.advance.reg x) := by rwa [hi] at hu
    simp
  · simp [hu.st_eq hi]
  · obtain rfl : u = s.advance.setReg x s.advance.dt := by rwa [hi] at hu
    simp

end Sys2Proof.Machine
end

section
/-! SUPPORT. Selection by the top nibble alone (30_encoding.md R75, R76): the mask `0xF000` keeps the primary key and
nothing else, so a row with that mask is one arm of the primary table. -/

namespace Sys2Proof.Laws

theorem topNibble_and_topMask (op : Word) : topNibble (op &&& 0xF000) = topNibble op := by
  have hmask : topNibble 0xF000 = BitVec.allOnes 4 := by decide
  calc topNibble (op &&& 0xF000)
    _ = topNibble op &&& topNibble 0xF000 := BitVec.extractLsb'_and
    _ = topNibble op := by rw [hmask, BitVec.and_allOnes]

/-- The arm of the primary table under a key is what every word of the row `pat`, whose key it is, decodes to. -/
theorem selects_topMask {pat : Word} {f : Word → Instr}
    (harm : ∀ p op, topNibble op = topNibble pat → decodeWord p op = f op) : Machine.Selects 0xF000 pat f := by
  intro p op hop
  exact harm p op (by rw [← hop, topNibble_and_topMask])

/-! ### The arms of the primary table that a jump or a skip stands in (R76) -/

theorem decodeWord_jp {op : Word} (h : topNibble op = 0x1#4) (p : PBnnn) : decodeWord p op = .jp (fieldNNN op) := by
  simp [decodeWord, h]

theorem decodeWord_seImm {op : Word} (h : topNibble op = 0x3#4) (p : PBnnn) :
    decodeWord p op = .seImm (fieldX op) (fieldNN op) := by
  simp [decodeWord, h]

theorem decodeWord_sneImm {op : Word} (h : topNibble op = 0x4#4) (p : PBnnn) :
    decodeWord p op = .sneImm (fieldX op) (fieldNN op) := by
  simp [decodeWord, h]

theorem decodeWord_seReg {op : Word} (h : topNibble op = 0x5#4) (p : PBnnn) :
    decodeWord p op = .seReg (fieldX op) (fieldY op) (fieldN op) := by
  simp [decodeWord, h]

theorem decodeWord_sneReg {op : Word} (h : topNibble op = 0x9#4) (p : PBnnn) :
    decodeWord p op = .sneReg (fieldX op) (fieldY op) (fieldN op) := by
  simp [decodeWord, h]

end Sys2Proof.Laws
end

section
/-! SUPPORT. Jumps and skips (41_flow_control.md R100, R103 to R106): both write `pc` alone, a skip the extra increment
when its condition holds. -/

namespace Sys2Proof.Machine

theorem skipIf_frame (s : State) (b : Bool) : Frame [.pc] s (s.skipIf b) := by
  cases b with
  | false => exact Frame.refl _ s
  | true => exact advance_frame s

theorem toNat_zextNNN (nnn : Imm12) : (zextNNN nnn).toNat = nnn.toNat :=
  BitVec.toNat_setWidth_of_le (by decide)

/-- What a skip does, whatever its condition `b`: `P` is a case in which the condition holds, `Q` one in which it does
not. -/
theorem exec_of_skipIf {i : Instr} {s : State} {b : Bool} {P Q : Prop} (hexec : exec i s = .next (s.skipIf b))
    (hskip : P → b = true) (hstay : Q → b = false) :
    ∃ t, exec i s = .next t ∧ (P → t.pc = s.pc + 2) ∧ (Q → t.pc = s.pc) ∧ Frame [.pc] s t := by
  refine ⟨s.skipIf b, hexec, fun hP => ?_, fun hQ => ?_, skipIf_frame s b⟩
  · simp [State.skipIf_eq, hskip hP]
  · simp [State.skipIf_eq, hstay hQ]

theorem exec_jp (nnn : Imm12) (s : State) : exec (.jp nnn) s = .next (s.setPc (zextNNN nnn)) := rfl

theorem exec_seImm (x : Nibble) (nn : Byte) (s : State) :
    exec (.seImm x nn) s = .next (s.skipIf (s.reg x == nn)) := rfl

theorem exec_sneImm (x : Nibble) (nn : Byte) (s : State) :
    exec (.sneImm x nn) s = .next (s.skipIf (s.reg x != nn)) := rfl

theorem exec_seReg (x y low : Nibble) (s : State) :
    exec (.seReg x y low) s = .next (s.skipIf (s.reg x == s.reg y)) := rfl

theorem exec_sneReg (x y low : Nibble) (s : State) :
    exec (.sneReg x y low) s = .next (s.skipIf (s.reg x != s.reg y)) := rfl

/-- Settles O13: the key `1` selects `JP`, whose handler writes the extended target into `pc`. -/
theorem jumpSetsPc : Obligations.JumpSetsPc := by
  refine ⟨Laws.selects_topMask fun p _ h => Laws.decodeWord_jp h p, fun nnn s => ?_⟩
  exact ⟨_, exec_jp nnn s, toNat_zextNNN nnn, Handled.frame (i := .jp nnn) rfl⟩

/-- Settles O16: the keys `3` and `4` select the two skips on a byte, whose conditions are `==` and `!=`. -/
theorem skipOnByteComparison : Obligations.SkipOnByteComparison := by
  refine ⟨Laws.selects_topMask fun p _ h => Laws.decodeWord_seImm h p,
    Laws.selects_topMask fun p _ h => Laws.decodeWord_sneImm h p, fun x nn s => ⟨?_, ?_⟩⟩
  · exact exec_of_skipIf (exec_seImm x nn s) beq_iff_eq.2 beq_eq_false_iff_ne.2
  · exact exec_of_skipIf (exec_sneImm x nn s) bne_iff_ne.2 bne_eq_false_iff_eq.2

/-- Settles O17: the keys `5` and `9` select the two skips on a register, whose handlers do not read the low nibble. -/
theorem skipOnRegisterComparison : Obligations.SkipOnRegisterComparison := by
  refine ⟨Laws.selects_topMask fun p _ h => Laws.decodeWord_seReg h p,
    Laws.selects_topMask fun p _ h => Laws.decodeWord_sneReg h p, fun x y low s => ⟨?_, ?_⟩⟩
  · exact exec_of_skipIf (exec_seReg x y low s) beq_iff_eq.2 beq_eq_false_iff_ne.2
  · exact exec_of_skipIf (exec_sneReg x y low s) bne_iff_ne.2 bne_eq_false_iff_eq.2

end Sys2Proof.Machine
end

section
/-! SUPPORT. Selection by the two keys of the family `0x8` (30_encoding.md R75, R78): the mask `0xF00F` keeps the top
and the low nibble, so a row of the family with that mask is one arm of `decode8`. -/

namespace Sys2Proof.Laws

/-- The arm of `decode8` under a low nibble is what every word of the row `pat`, whose low nibble it is, decodes to. -/
theorem selects_family8 {pat : Word} {f : Word → Instr} (hfamily : topNibble pat = 0x8#4)
    (harm : ∀ op, fieldN op = fieldN pat → decode8 op = f op) : Machine.Selects 0xF00F pat f := by
  intro p op hop
  have htop : topNibble op = 0x8#4 := (topNibble_of_mask hop (by decide)).trans hfamily
  have hlow : fieldN op = fieldN pat := fieldN_of_mask hop (by decide)
  calc decodeWord p op
    _ = decode8 op := by simp [decodeWord, htop]
    _ = f op := harm op hlow

theorem decode8_ldReg {op : Word} (h : fieldN op = 0x0#4) : decode8 op = .ldReg (fieldX op) (fieldY op) := by
  simp [decode8, h]

theorem decode8_orReg {op : Word} (h : fieldN op = 0x1#4) : decode8 op = .orReg (fieldX op) (fieldY op) := by
  simp [decode8, h]

theorem decode8_andReg {op : Word} (h : fieldN op = 0x2#4) : decode8 op = .andReg (fieldX op) (fieldY op) := by
  simp [decode8, h]

theorem decode8_xorReg {op : Word} (h : fieldN op = 0x3#4) : decode8 op = .xorReg (fieldX op) (fieldY op) := by
  simp [decode8, h]

theorem decode8_addReg {op : Word} (h : fieldN op = 0x4#4) : decode8 op = .addReg (fieldX op) (fieldY op) := by
  simp [decode8, h]

theorem decode8_shr {op : Word} (h : fieldN op = 0x6#4) : decode8 op = .shr (fieldX op) (fieldY op) := by
  simp [decode8, h]

theorem decode8_shl {op : Word} (h : fieldN op = 0xE#4) : decode8 op = .shl (fieldX op) (fieldY op) := by
  simp [decode8, h]

/-! ### The arms of the primary table with an immediate into a register (R76) -/

theorem decodeWord_ldImm {op : Word} (h : topNibble op = 0x6#4) (p : PBnnn) :
    decodeWord p op = .ldImm (fieldX op) (fieldNN op) := by
  simp [decodeWord, h]

theorem decodeWord_addImm {op : Word} (h : topNibble op = 0x7#4) (p : PBnnn) :
    decodeWord p op = .addImm (fieldX op) (fieldNN op) := by
  simp [decodeWord, h]

end Sys2Proof.Laws
end

section
/-! SUPPORT. The instructions that write one register and no flag (42_arithmetic_logic.md R110 to R115): each is one
`setReg`, whose result and frame are the same whatever the value. -/

namespace Sys2Proof.Machine

theorem setReg_regsExcept (s : State) (x : Nibble) (v : Byte) : RegsExcept [x] s (s.setReg x v) := by
  intro r hr
  exact s.reg_setReg_other v (by simpa using hr)

theorem setReg_frame (s : State) (x : Nibble) (v : Byte) : Frame [.registers] s (s.setReg x v) := by
  intro p hp
  cases p <;> simp_all [StatePart.same]

/-- What an instruction does whose handler is one register write. -/
theorem exec_of_setReg {i : Instr} {s : State} {x : Nibble} {v : Byte} (hexec : exec i s = .next (s.setReg x v)) :
    ∃ t, exec i s = .next t ∧ t.reg x = v ∧ RegsExcept [x] s t ∧ Frame [.registers] s t :=
  ⟨_, hexec, s.reg_setReg_same x v, setReg_regsExcept s x v, setReg_frame s x v⟩

theorem exec_ldImm (x : Nibble) (nn : Byte) (s : State) : exec (.ldImm x nn) s = .next (s.setReg x nn) := rfl

theorem exec_addImm (x : Nibble) (nn : Byte) (s : State) :
    exec (.addImm x nn) s = .next (s.setReg x (s.reg x + nn)) := rfl

theorem exec_ldReg (x y : Nibble) (s : State) : exec (.ldReg x y) s = .next (s.setReg x (s.reg y)) := rfl

theorem exec_orReg (x y : Nibble) (s : State) :
    exec (.orReg x y) s = .next (s.setReg x (s.reg x ||| s.reg y)) := rfl

theorem exec_andReg (x y : Nibble) (s : State) :
    exec (.andReg x y) s = .next (s.setReg x (s.reg x &&& s.reg y)) := rfl

theorem exec_xorReg (x y : Nibble) (s : State) :
    exec (.xorReg x y) s = .next (s.setReg x (s.reg x ^^^ s.reg y)) := rfl

/-- Settles O20: the key `6` selects `LD Vx, NN`, whose handler writes the byte. -/
theorem loadImmediateSetsRegister : Obligations.LoadImmediateSetsRegister := by
  refine ⟨Laws.selects_topMask fun p _ h => Laws.decodeWord_ldImm h p, fun x nn s => ?_⟩
  exact exec_of_setReg (exec_ldImm x nn s)

/-- Settles O21: the key `7` selects `ADD Vx, NN`, whose handler writes the sum of bytes, which wraps. -/
theorem addImmediateWrapsWithoutFlag : Obligations.AddImmediateWrapsWithoutFlag := by
  refine ⟨Laws.selects_topMask fun p _ h => Laws.decodeWord_addImm h p, fun x nn s => ?_⟩
  obtain ⟨t, ht, hx, hregs, hframe⟩ := exec_of_setReg (exec_addImm x nn s)
  exact ⟨t, ht, by rw [hx, BitVec.toNat_add], hregs, hframe⟩

/-- Settles O22: the keys `8` and `0` select `LD Vx, Vy`, whose handler writes the other register's value. -/
theorem copySetsRegister : Obligations.CopySetsRegister := by
  refine ⟨Laws.selects_family8 (by decide) fun _ h => Laws.decode8_ldReg h, fun x y s => ?_⟩
  exact exec_of_setReg (exec_ldReg x y s)

/-- Settles O23: the keys `8` and `1`, `2` or `3` select the operations, whose handlers write the bitwise result. -/
theorem logicActsBitwiseWithoutFlag : Obligations.LogicActsBitwiseWithoutFlag := by
  refine ⟨Laws.selects_family8 (by decide) fun _ h => Laws.decode8_orReg h,
    Laws.selects_family8 (by decide) fun _ h => Laws.decode8_andReg h,
    Laws.selects_family8 (by decide) fun _ h => Laws.decode8_xorReg h, fun x y s => ⟨?_, ?_, ?_⟩⟩
  · obtain ⟨t, ht, hx, hregs, hframe⟩ := exec_of_setReg (exec_orReg x y s)
    exact ⟨t, ht, fun k => by rw [hx, BitVec.getLsbD_or], hregs, hframe⟩
  · obtain ⟨t, ht, hx, hregs, hframe⟩ := exec_of_setReg (exec_andReg x y s)
    exact ⟨t, ht, fun k => by rw [hx, BitVec.getLsbD_and], hregs, hframe⟩
  · obtain ⟨t, ht, hx, hregs, hframe⟩ := exec_of_setReg (exec_xorReg x y s)
    exact ⟨t, ht, fun k => by rw [hx, BitVec.getLsbD_xor], hregs, hframe⟩

end Sys2Proof.Machine
end

section
/-! SUPPORT. The instructions that write the flag and then a register (42_arithmetic_logic.md R116 to R122): in either
write order of R122 the result, written last, stays in `Vx` when `Vx` is the flag register. -/

namespace Sys2Proof.Machine

theorem setFlag_reg_flag (s : State) (b : Bool) : (s.setFlag b).reg 15 = flagByte b :=
  s.reg_setReg_same flagReg (flagByte b)

theorem setFlag_reg_of_ne (s : State) (b : Bool) {r : Nibble} (hr : r ≠ 15) : (s.setFlag b).reg r = s.reg r :=
  s.reg_setReg_other (flagByte b) hr

theorem setFlagThenReg_reg_same (s : State) (b : Bool) (x : Nibble) (v : Byte) : (s.setFlagThenReg b x v).reg x = v :=
  State.reg_setReg_same _ x v

theorem setFlagThenReg_reg_flag (s : State) (b : Bool) {x : Nibble} (v : Byte) (hx : x ≠ 15) :
    (s.setFlagThenReg b x v).reg 15 = flagByte b :=
  calc (s.setFlagThenReg b x v).reg 15
    _ = (s.setFlag b).reg 15 := State.reg_setReg_other _ v hx.symm
    _ = flagByte b := setFlag_reg_flag s b

theorem setFlagThenReg_regsExcept (s : State) (b : Bool) (x : Nibble) (v : Byte) :
    RegsExcept [x, 15] s (s.setFlagThenReg b x v) := by
  intro r hr
  obtain ⟨hx, hflag⟩ : r ≠ x ∧ r ≠ 15 := by simpa using hr
  calc (s.setFlagThenReg b x v).reg r
    _ = (s.setFlag b).reg r := State.reg_setReg_other _ v hx
    _ = s.reg r := setFlag_reg_of_ne s b hflag

theorem setFlagThenReg_frame (s : State) (b : Bool) (x : Nibble) (v : Byte) :
    Frame [.registers] s (s.setFlagThenReg b x v) := fun p hp =>
  StatePart.same_trans (setReg_frame s flagReg (flagByte b) p hp) (setReg_frame (s.setFlag b) x v p hp)

/-- What an instruction does that writes the flag and then a result in the order R122 (a). -/
theorem exec_of_setFlagThenReg {i : Instr} {s : State} {b : Bool} {x : Nibble} {v : Byte}
    (hexec : exec i s = .next (s.setFlagThenReg b x v)) :
    ∃ t, exec i s = .next t ∧ t.reg x = v ∧ (x ≠ 15 → t.reg 15 = flagByte b) ∧
      RegsExcept [x, 15] s t ∧ Frame [.registers] s t :=
  ⟨_, hexec, setFlagThenReg_reg_same s b x v, setFlagThenReg_reg_flag s b v, setFlagThenReg_regsExcept s b x v,
    setFlagThenReg_frame s b x v⟩

/-- What an instruction does that writes the flag and then shifts a register in the order R122 (b): the value shifted is
the flag itself when the register is the flag register. -/
theorem exec_of_setFlagThenShift {i : Instr} {s : State} {b : Bool} {x : Nibble} {shift : Byte → Byte}
    (hexec : exec i s = .next (s.setFlagThenShift b x shift)) :
    ∃ t, exec i s = .next t ∧ (x ≠ 15 → t.reg x = shift (s.reg x) ∧ t.reg 15 = flagByte b) ∧
      (x = 15 → t.reg 15 = shift (flagByte b)) ∧ RegsExcept [x, 15] s t ∧ Frame [.registers] s t := by
  obtain ⟨t, ht, hx, hflag, hregs, hframe⟩ := exec_of_setFlagThenReg (v := shift ((s.setFlag b).reg x)) hexec
  refine ⟨t, ht, fun hne => ⟨?_, hflag hne⟩, fun heq => ?_, hregs, hframe⟩
  · rw [hx, setFlag_reg_of_ne s b hne]
  · subst heq
    rw [hx, setFlag_reg_flag]

/-! ### The flag and the shifted value as numbers -/

theorem flagByte_carryOut (a b : Byte) : flagByte (carryOut a b) = if a.toNat + b.toNat > 255 then 1 else 0 := by
  simp [flagByte, carryOut]

theorem toNat_flagByte (b : Bool) : (flagByte b).toNat = b.toNat := by
  cases b <;> rfl

theorem toNat_flagByte_lowBit (v : Byte) : (flagByte (lowBit v)).toNat = v.toNat % 2 := by
  rw [toNat_flagByte, lowBit, BitVec.getLsbD, Nat.toNat_testBit, Nat.pow_zero, Nat.div_one]

theorem toNat_flagByte_highBit (v : Byte) : (flagByte (highBit v)).toNat = v.toNat / 128 := by
  have hlt : v.toNat / 128 < 2 := by have := v.isLt; omega
  rw [toNat_flagByte, highBit, BitVec.getLsbD, Nat.toNat_testBit]
  exact Nat.mod_eq_of_lt hlt

theorem toNat_shiftLeft_one (v : Byte) : (v <<< 1).toNat = 2 * v.toNat % 256 := by
  rw [BitVec.toNat_shiftLeft, Nat.shiftLeft_eq, Nat.pow_one, Nat.mul_comm]

/-- A flag shifted right by one is lost. -/
theorem flagByte_ushiftRight_one (b : Bool) : flagByte b >>> 1 = 0 := by
  cases b <;> rfl

/-- A flag shifted left by one does not wrap. -/
theorem toNat_flagByte_shiftLeft_one (b : Bool) : (flagByte b <<< 1).toNat = 2 * (flagByte b).toNat := by
  cases b <;> rfl

theorem exec_addReg (x y : Nibble) (s : State) :
    exec (.addReg x y) s = .next (s.setFlagThenReg (carryOut (s.reg x) (s.reg y)) x (s.reg x + s.reg y)) := rfl

theorem exec_shr (x y : Nibble) (s : State) :
    exec (.shr x y) s = .next (s.setFlagThenShift (lowBit (s.reg x)) x (· >>> 1)) := rfl

theorem exec_shl (x y : Nibble) (s : State) :
    exec (.shl x y) s = .next (s.setFlagThenShift (highBit (s.reg x)) x (· <<< 1)) := rfl

/-- Settles O24: the keys `8` and `4` select `ADD Vx, Vy`, which writes the carry and then the sum, both of the old
values. -/
theorem addSetsCarryAndSum : Obligations.AddSetsCarryAndSum := by
  refine ⟨Laws.selects_family8 (by decide) fun _ h => Laws.decode8_addReg h, fun x y s => ?_⟩
  obtain ⟨t, ht, hx, hflag, hregs, hframe⟩ := exec_of_setFlagThenReg (exec_addReg x y s)
  exact ⟨t, ht, by rw [hx, BitVec.toNat_add], fun hne => by rw [hflag hne, flagByte_carryOut], hregs, hframe⟩

/-- Settles O26: the keys `8` and `6` or `E` select the shifts, which write the bit shifted out and then shift what `Vx`
holds after that write: its old value, or the flag when `Vx` is `VF`. -/
theorem shiftsMoveOneBitIntoFlag : Obligations.ShiftsMoveOneBitIntoFlag := by
  refine ⟨Laws.selects_family8 (by decide) fun _ h => Laws.decode8_shr h,
    Laws.selects_family8 (by decide) fun _ h => Laws.decode8_shl h, fun x y s => ⟨?_, ?_⟩⟩
  · obtain ⟨t, ht, hother, hflag, hregs, hframe⟩ := exec_of_setFlagThenShift (exec_shr x y s)
    refine ⟨t, ht, fun hne => ?_, fun heq => ?_, hregs, hframe⟩
    · obtain ⟨hx, hf⟩ := hother hne
      exact ⟨by rw [hx, BitVec.toNat_ushiftRight, Nat.shiftRight_one], by rw [hf, toNat_flagByte_lowBit]⟩
    · rw [hflag heq, flagByte_ushiftRight_one]
  · obtain ⟨t, ht, hother, hflag, hregs, hframe⟩ := exec_of_setFlagThenShift (exec_shl x y s)
    refine ⟨t, ht, fun hne => ?_, fun heq => ?_, hregs, hframe⟩
    · obtain ⟨hx, hf⟩ := hother hne
      exact ⟨by rw [hx, toNat_shiftLeft_one], by rw [hf, toNat_flagByte_highBit]⟩
    · rw [hflag heq, toNat_flagByte_shiftLeft_one, toNat_flagByte_highBit, heq]

end Sys2Proof.Machine
end

section
/-! SUPPORT. An immediate into the index register (43_index_random.md R125): its arm of the primary table and its
handler, which writes `I` alone. -/

namespace Sys2Proof.Laws

theorem decodeWord_ldI {op : Word} (h : topNibble op = 0xA#4) (p : PBnnn) : decodeWord p op = .ldI (fieldNNN op) := by
  simp [decodeWord, h]

end Sys2Proof.Laws

namespace Sys2Proof.Machine

theorem exec_ldI (nnn : Imm12) (s : State) : exec (.ldI nnn) s = .next (s.setI (zextNNN nnn)) := rfl

/-- Settles O27: the key `A` selects `LD I, NNN`, whose handler writes the extended immediate into `I`. -/
theorem loadIndexImmediate : Obligations.LoadIndexImmediate := by
  refine ⟨Laws.selects_topMask fun p _ h => Laws.decodeWord_ldI h p, fun nnn s => ?_⟩
  exact ⟨_, exec_ldI nnn s, toNat_zextNNN nnn, Handled.frame (i := .ldI nnn) rfl⟩

end Sys2Proof.Machine
end

section
/-! SUPPORT. Selection by the two keys of a family that is keyed by its low nibble (30_encoding.md R71, R75, R77), and
the row of `CLS`. -/

namespace Sys2Proof.Laws

/-- The arm under a top and a low nibble is what every word of the row `pat`, whose keys they are, decodes to. -/
theorem selects_topAndLowMask {pat : Word} {f : Word → Instr}
    (harm : ∀ p op, topNibble op = topNibble pat → fieldN op = fieldN pat → decodeWord p op = f op) :
    Machine.Selects 0xF00F pat f := fun p op hop =>
  harm p op (topNibble_of_mask hop (by decide)) (fieldN_of_mask hop (by decide))

theorem decodeWord_cls {op : Word} (htop : topNibble op = 0x0#4) (hlow : fieldN op = 0x0#4) (p : PBnnn) :
    decodeWord p op = .cls (fieldMid op) := by
  simp [decodeWord, htop, decode0, hlow]

end Sys2Proof.Laws
end

section
/-! SUPPORT. `CLS` (44_display.md R130): its handler writes the framebuffer alone, in which every pixel is then clear. -/

namespace Sys2Proof.Machine

@[simp] theorem Framebuffer.pixel_clear (px py : Nat) : Framebuffer.pixel Framebuffer.clear px py = false := by
  by_cases hy : py < 32 <;> simp [Framebuffer.pixel, Framebuffer.clear, hy]

theorem exec_cls (mid : Byte) (s : State) : exec (.cls mid) s = .next (s.setFb Framebuffer.clear) := rfl

/-- Settles O31: the keys `0` and `0` select `CLS`, whose handler puts the clear framebuffer in place. -/
theorem clearScreenClearsEveryPixel : Obligations.ClearScreenClearsEveryPixel := by
  refine ⟨Laws.selects_topAndLowMask fun p _ htop hlow => Laws.decodeWord_cls htop hlow p, fun mid s => ?_⟩
  exact ⟨_, exec_cls mid s, fun px py _ _ => Framebuffer.pixel_clear px py, Handled.frame (i := .cls mid) rfl⟩

end Sys2Proof.Machine
end

section
/-! SUPPORT. What `DRW` does as a whole (44_display.md R131), in the terms of the statements: where every row of the
sprite fits, the drawing of the pixels it covers, and a fault in every other case. -/

namespace Sys2Proof.Machine

theorem spriteRowFits_iff (s : State) (x y : Nibble) (row : Nat) :
    SpriteRowFits s x y row ↔ RowFits s (s.spriteCol x) (s.spriteRow y) row := by
  simp only [SpriteRowFits, RowFits, ← Nat.lt_succ_iff]
  rfl

theorem spriteCovers_iff (s : State) (x y n : Nibble) (px py : Nat) :
    SpriteCovers s x y n px py ↔ RowsCover s (s.spriteCol x) (s.spriteRow y) (List.range n.toNat) px py := by
  constructor
  · rintro ⟨row, col, hrow, hcol, hbit, hx, hy⟩
    exact ⟨row, List.mem_range.2 hrow, col, hcol, hbit, hx, hy⟩
  · rintro ⟨row, hrow, col, hcol, hbit, hx, hy⟩
    exact ⟨row, col, List.mem_range.1 hrow, hcol, hbit, hx, hy⟩

/-- Rows that were drawn fit. -/
theorem rowFits_of_drawRows_ok {s : State} {x0 y0 : Nat} {rows : List Nat} {d d' : Drawing}
    (h : drawRows s x0 y0 rows d = .ok d') : ∀ row ∈ rows, RowFits s x0 y0 row := by
  induction rows generalizing d with
  | nil => simp
  | cons row rows ih =>
    obtain ⟨hfit, hmem, hscreen⟩ := drawRow_spec s x0 y0 row rows d
    by_cases hrow : RowFits s x0 y0 row
    · obtain ⟨d₁, hd₁, -⟩ := hfit hrow
      exact List.forall_mem_cons.2 ⟨hrow, ih (hd₁ ▸ h)⟩
    · by_cases ha : s.effAddr row ≤ topAddress
      · simp [hscreen ha hrow] at h
      · simp [hmem ha] at h

/-- A draw whose rows all fit. -/
theorem exec_drw_of_fits {x y n : Nibble} {s : State} (hfit : ∀ row, row < n.toNat → SpriteRowFits s x y row) :
    ∃ d, exec (.drw x y n) s = .next ((s.setFb d.1).setFlag d.2) ∧ DrawOk (SpriteCovers s x y n) (s.fb, false) d := by
  obtain ⟨d, hd, hok⟩ := drawRows_fits s (s.spriteCol x) (s.spriteRow y) (List.range n.toNat) (s.fb, false)
    List.nodup_range fun row hrow => (spriteRowFits_iff s x y row).1 (hfit row (List.mem_range.1 hrow))
  exact ⟨d, by simp only [exec, execDrw, hd]; rfl, hok.congr (spriteCovers_iff s x y n)⟩

/-- Everything a draw can do: all rows fit, or it takes a fault. -/
theorem exec_drw_cases (x y n : Nibble) (s : State) :
    (∀ row, row < n.toNat → SpriteRowFits s x y row) ∨
    ∃ f, exec (.drw x y n) s = .next ((s.setPc (s.pc - 2)).takeFault f) := by
  cases h : drawRows s (s.spriteCol x) (s.spriteRow y) (List.range n.toNat) (s.fb, false) with
  | ok d =>
    refine .inl fun row hrow => (spriteRowFits_iff s x y row).2 ?_
    exact rowFits_of_drawRows_ok h row (List.mem_range.2 hrow)
  | error f => exact .inr ⟨f, by simp only [exec, execDrw, h]; rfl⟩

end Sys2Proof.Machine
end

section
/-! SUPPORT. Drawing twice (44_display.md R133): the first draw leaves the sprite and its place as they were unless a
coordinate register is `VF`, so the second inverts the same pixels again. -/

namespace Sys2Proof.Machine

/-- Framebuffers with the same pixels are equal. -/
theorem Framebuffer.ext_pixel {f g : Framebuffer} (h : ∀ px py, Framebuffer.pixel f px py = Framebuffer.pixel g px py) :
    f = g := by
  refine Vector.ext fun py hy => BitVec.eq_of_getLsbD_eq fun px _ => ?_
  simpa [Framebuffer.pixel, hy] using h px py

/-- Inverting the same pixels twice restores the framebuffer. -/
theorem DrawOk.restores {lit : Nat → Nat → Prop} {d d₁ d₂ : Drawing} {hit : Bool} (h : DrawOk lit d d₁)
    (h' : DrawOk lit (d₁.1, hit) d₂) : d₂.1 = d.1 := by
  refine Framebuffer.ext_pixel fun px py => ?_
  by_cases hlit : lit px py
  · rw [h'.inverted px py hlit, h.inverted px py hlit, Bool.not_not]
  · rw [h'.kept px py hlit, h.kept px py hlit]

theorem flagByte_eq_one_iff (b : Bool) : flagByte b = 1 ↔ b = true := by
  cases b <;> decide

/-! ### The sprite after a draw (R133): only the screen and `VF` have changed -/

section
variable {x y : Nibble} (hx : x ≠ 15) (hy : y ≠ 15) (s : State) (f : Framebuffer) (hit : Bool)
include hx hy

theorem spriteRowFits_drawn (row : Nat) :
    SpriteRowFits ((s.setFb f).setFlag hit) x y row ↔ SpriteRowFits s x y row := by
  simp only [SpriteRowFits, setFlag_reg_of_ne _ _ hx, setFlag_reg_of_ne _ _ hy]
  rfl

theorem spriteCovers_drawn (n : Nibble) (px py : Nat) :
    SpriteCovers ((s.setFb f).setFlag hit) x y n px py ↔ SpriteCovers s x y n px py := by
  simp only [SpriteCovers, setFlag_reg_of_ne _ _ hx, setFlag_reg_of_ne _ _ hy]
  rfl

end

/-- Settles O33: a draw that completes is a `DrawOk` of the pixels the sprite covers, so the second, over the same
pixels, undoes it and reports those that the first left set; a draw that faults leaves the screen. -/
theorem drawingTwiceRestoresTheScreen : Obligations.DrawingTwiceRestoresTheScreen := by
  intro x y n s t ht
  rcases exec_drw_cases x y n s with hfit | ⟨f, hfault⟩
  · obtain ⟨d, hd, hok⟩ := exec_drw_of_fits hfit
    obtain rfl : (s.setFb d.1).setFlag d.2 = t := Host.Outcome.next.inj (hd.symm.trans ht)
    refine ⟨fun px py hne => by_contra fun hcov => hne (hok.kept px py hcov), fun hx hy _ => ?_⟩
    obtain ⟨e, he, hok'⟩ := exec_drw_of_fits fun row hrow => (spriteRowFits_drawn hx hy s d.1 d.2 row).2 (hfit row hrow)
    have hagain := hok'.congr fun px py => (spriteCovers_drawn hx hy s d.1 d.2 n px py).symm
    refine ⟨_, he, hok.restores hagain, ?_⟩
    rw [setFlag_reg_flag, flagByte_eq_one_iff, hagain.hit]
    exact or_iff_right Bool.false_ne_true
  · obtain rfl : (s.setPc (s.pc - 2)).takeFault f = t := Host.Outcome.next.inj (hfault.symm.trans ht)
    exact ⟨fun px py hne => absurd rfl hne, fun _ _ hok => absurd hok (by simp)⟩

end Sys2Proof.Machine
end

section
/-! SUPPORT. Selection by the two keys of the family `0xF` (30_encoding.md R75, R80): the mask `0xF0FF` keeps the top
nibble and the low byte, so a row of the family is one arm of `decodeF`. -/

namespace Sys2Proof.Laws

/-- The arm of `decodeF` under a low byte is what every word of the row `pat`, whose low byte it is, decodes to. -/
theorem selects_familyF {pat : Word} {f : Word → Instr} (hfamily : topNibble pat = 0xF#4)
    (harm : ∀ op, fieldNN op = fieldNN pat → decodeF op = f op) : Machine.Selects 0xF0FF pat f := by
  intro p op hop
  have htop : topNibble op = 0xF#4 := (topNibble_of_mask hop (by decide)).trans hfamily
  have hlow : fieldNN op = fieldNN pat := fieldNN_of_mask hop (by decide)
  calc decodeWord p op
    _ = decodeF op := by simp [decodeWord, htop]
    _ = f op := harm op hlow

theorem decodeF_ldVxDt {op : Word} (h : fieldNN op = 0x07#8) : decodeF op = .ldVxDt (fieldX op) := by
  simp [decodeF, h]

end Sys2Proof.Laws
end

section
/-! SUPPORT. `LD Vx, DT` (45_input_timers.md R138): its handler is one register write of the delay timer, which the tick
after it lowers without touching the register. -/

namespace Sys2Proof.Machine

theorem finish_reg (t : State) (op : Word) (r : Nibble) : (t.finish op).reg r = t.reg r :=
  finish_frame t op .registers (by decide) r

theorem toNat_finish_dt {t : State} (op : Word) (h : t.fault = false) : (t.finish op).dt.toNat = t.dt.toNat - 1 := by
  simp [finish_of_ok op h]

theorem exec_ldVxDt (x : Nibble) (s : State) : exec (.ldVxDt x) s = .next (s.setReg x s.dt) := rfl

/-- The timer the handler reads is the one before the step: the advance leaves it. -/
theorem step_of_ldVxDt {x : Nibble} {s : State} (hf : s.fault = false) (hpc : s.pc.toNat ≤ 0xFFE)
    (hi : s.fetchInstr = .ldVxDt x) : step s = .next ((s.advance.setReg x s.dt).finish s.fetchWord) :=
  step_of_exec hf ((canFetch_iff s).2 hpc) (by rw [hi, exec_ldVxDt]; rfl)

/-- Settles O37: the keys `F` and `07` select `LD Vx, DT`, whose handler copies the timer before the tick of the step
lowers it. -/
theorem readDelayTimerBeforeTick : Obligations.ReadDelayTimerBeforeTick := by
  refine ⟨Laws.selects_familyF (by decide) fun _ h => Laws.decodeF_ldVxDt h, fun x s => ?_, fun x s hf hpc hi => ?_⟩
  · exact exec_of_setReg (exec_ldVxDt x s)
  · refine ⟨_, step_of_ldVxDt hf hpc hi, ?_, toNat_finish_dt _ hf⟩
    rw [finish_reg, State.reg_setReg_same]

end Sys2Proof.Machine
end

section
/-! SUPPORT. The round trip of the encoding (30_encoding.md R72 to R82) over all instructions: one law of the family
`RoundTrip` for each constructor; and the other direction, family by family, from the word put together again of its
fields. -/

namespace Sys2Proof.Laws

/-- Settles O1: for each constructor its law of the family `RoundTrip`. -/
theorem decodeAfterEncodeIsIdentity : Obligations.DecodeAfterEncodeIsIdentity := by
  suffices h : ∀ i, RoundTrip.Statement i from fun p i => h i p
  intro i
  cases i with
  | cls mid => exact RoundTrip.cls mid
  | ret mid => exact RoundTrip.ret mid
  | jp nnn => exact RoundTrip.jp nnn
  | call nnn => exact RoundTrip.call nnn
  | seImm x nn => exact RoundTrip.seImm x nn
  | sneImm x nn => exact RoundTrip.sneImm x nn
  | seReg x y low => exact RoundTrip.seReg x y low
  | ldImm x nn => exact RoundTrip.ldImm x nn
  | addImm x nn => exact RoundTrip.addImm x nn
  | ldReg x y => exact RoundTrip.ldReg x y
  | orReg x y => exact RoundTrip.orReg x y
  | andReg x y => exact RoundTrip.andReg x y
  | xorReg x y => exact RoundTrip.xorReg x y
  | addReg x y => exact RoundTrip.addReg x y
  | sub x y => exact RoundTrip.sub x y
  | shr x y => exact RoundTrip.shr x y
  | subn x y => exact RoundTrip.subn x y
  | shl x y => exact RoundTrip.shl x y
  | sneReg x y low => exact RoundTrip.sneReg x y low
  | ldI nnn => exact RoundTrip.ldI nnn
  | jpV0 nnn => exact RoundTrip.jpV0 nnn
  | rnd x nn => exact RoundTrip.rnd x nn
  | drw x y n => exact RoundTrip.drw x y n
  | skp x mid => exact RoundTrip.skp x mid
  | sknp x mid => exact RoundTrip.sknp x mid
  | ldVxDt x => exact RoundTrip.ldVxDt x
  | ldVxK x => exact RoundTrip.ldVxK x
  | ldDtVx x => exact RoundTrip.ldDtVx x
  | ldStVx x => exact RoundTrip.ldStVx x
  | addI x => exact RoundTrip.addI x
  | ldF x => exact RoundTrip.ldF x
  | ldB x => exact RoundTrip.ldB x
  | storeRegs x => exact RoundTrip.storeRegs x
  | loadRegs x => exact RoundTrip.loadRegs x
  | nop op => exact RoundTrip.nop op

/-! ### A word decoded and encoded again -/

/-- An instruction of the top nibble `k` in the format `XYN` whose other fields are those of the word. -/
theorem encodeXYN_of_keys {op : Word} {k n : Nibble} (hk : topNibble op = k) (hn : fieldN op = n) :
    encodeXYN k (fieldX op) (fieldY op) n = op := by
  rw [← hk, ← hn, encodeXYN_fields]

theorem encodeXNN_of_keys {op : Word} {k : Nibble} {nn : Byte} (hk : topNibble op = k) (hnn : fieldNN op = nn) :
    encodeXNN k (fieldX op) nn = op := by
  rw [← hk, ← hnn, encodeXNN_fields]

theorem encodeNNN_of_key {op : Word} {k : Nibble} (hk : topNibble op = k) : encodeNNN k (fieldNNN op) = op := by
  rw [← hk, encodeNNN_fields]

theorem encodeZ_of_keys {op : Word} {k n : Nibble} (hk : topNibble op = k) (hn : fieldN op = n) :
    encodeZ k (fieldMid op) n = op := by
  rw [← hk, ← hn, encodeZ_fields]

theorem encode_decode0 {op : Word} (ht : topNibble op = 0x0#4) : encode (decode0 op) = op := by
  unfold decode0
  split
  case h_3 => rfl
  all_goals exact encodeZ_of_keys ht ‹_›

theorem encode_decode8 {op : Word} (ht : topNibble op = 0x8#4) : encode (decode8 op) = op := by
  unfold decode8
  split
  case h_10 => rfl
  all_goals exact encodeXYN_of_keys ht ‹_›

theorem encode_decodeE {op : Word} (ht : topNibble op = 0xE#4) : encode (decodeE op) = op := by
  unfold decodeE
  split
  case h_3 => rfl
  all_goals exact encodeXYN_of_keys ht ‹_›

theorem encode_decodeF {op : Word} (ht : topNibble op = 0xF#4) : encode (decodeF op) = op := by
  unfold decodeF
  split
  case h_10 => rfl
  all_goals exact encodeXNN_of_keys ht ‹_›

/-- The decoder drops no bit of a word: each arm of the primary table keeps every field of its format. -/
theorem encode_decodeWord (p : PBnnn) (op : Word) : encode (decodeWord p op) = op := by
  unfold decodeWord
  split
  case h_1 ht => exact encode_decode0 ht
  case h_9 ht => exact encode_decode8 ht
  case h_12 ht =>
    cases p with
    | jpV0 => exact encodeNNN_of_key ht
    | nop => rfl
  case h_15 ht => exact encode_decodeE ht
  case h_16 => exact encode_decodeF (eq_fifteen_of_ne _ (by simp_all))
  case h_2 ht | h_3 ht | h_11 ht => exact encodeNNN_of_key ht
  case h_4 ht | h_5 ht | h_7 ht | h_8 ht | h_13 ht => exact encodeXNN_of_keys ht rfl
  case h_6 ht | h_10 ht | h_14 ht => exact encodeXYN_of_keys ht rfl

/-- Settles O2: the decoder answers well-formed instructions only and keeps every field of the word. -/
theorem encodeAfterDecodeIsIdentity : Obligations.EncodeAfterDecodeIsIdentity :=
  fun p op => ⟨decodeWord_wf p op, encode_decodeWord p op⟩

end Sys2Proof.Laws
end

section
/-! SUPPORT. The invariant (10_state.md R25, R34, R38, R41) along a step: where a handler can put `pc`, what it leaves
on the return stack, and that it keeps memory canonical; each said once, from what an instruction can do. -/

namespace Sys2Proof.Machine

/-- Everything a handler can do to `pc`: leave it, skip, wait, jump to an immediate, return to an entry of the stack in
use, or under `P_BNNN = jp_v0` jump with an offset. -/
theorem Handled.pc_cases {i : Instr} {s t : State} (h : Handled i s t) :
    t.pc = s.pc ∨ t.pc = s.pc + 2 ∨ t.pc = s.pc - 2 ∨ (∃ nnn, t.pc = zextNNN nnn) ∨
      (∃ k, k < s.sp.val ∧ t.pc = s.stackAt k) ∨ (s.config.pBnnn = .jpV0 ∧ ∃ nnn, t.pc = s.offsetTarget nnn) := by
  have hskip : ∀ b, (s.skipIf b).pc = s.pc ∨ (s.skipIf b).pc = s.pc + 2 := fun b => by cases b <;> simp [State.skipIf]
  cases i
  case jp nnn => exact .inr (.inr (.inr (.inl ⟨nnn, by rw [h]; rfl⟩)))
  case call nnn => obtain ⟨k, hsp, -, rfl⟩ := h; exact .inr (.inr (.inr (.inl ⟨nnn, rfl⟩)))
  case ret => obtain ⟨k, hk, rfl⟩ := h; exact .inr (.inr (.inr (.inr (.inl ⟨k.val, by omega, rfl⟩))))
  case jpV0 nnn =>
    rcases h with ⟨hp, rfl⟩ | ⟨-, rfl⟩
    · exact .inr (.inr (.inr (.inr (.inr ⟨hp, nnn, rfl⟩))))
    · exact .inl rfl
  case ldVxK =>
    rcases h with ⟨k, -, rfl⟩ | ⟨-, rfl⟩
    · exact .inl rfl
    · exact .inr (.inr (.inl rfl))
  case skp | sknp => obtain ⟨-, rfl⟩ := h; exact (hskip _).imp_right .inl
  case seImm | sneImm | seReg | sneReg => subst h; exact (hskip _).imp_right .inl
  all_goals exact .inl (h.frame .pc (by simp [writes]))

/-- An entry of the stack in use after a handler was in use before it, or is the return address of the call. -/
theorem Handled.stackAt_cases {i : Instr} {s t : State} (h : Handled i s t) {k : Nat} (hk : k < t.sp.val) :
    (k < s.sp.val ∧ t.stackAt k = s.stackAt k) ∨ t.stackAt k = s.pc := by
  cases i
  case ret => obtain ⟨j, hj, rfl⟩ := h; exact .inl ⟨by have : k < j.val := hk; omega, rfl⟩
  case call =>
    obtain ⟨j, hsp, hj, rfl⟩ := h
    have hk : k < j.val := hk
    by_cases heq : s.sp.val = k
    · subst heq; exact .inr (by simp [State.stackAt, hsp])
    · exact .inl ⟨by omega, by simp [State.stackAt, heq]⟩
  all_goals
    have hsp : t.sp = s.sp := h.frame .sp (by simp [writes])
    have hstack : t.stack = s.stack := h.frame .stack (by simp [writes])
    exact .inl ⟨by rwa [← hsp], by simp [State.stackAt, hstack]⟩

/-- A handler keeps the canonical form of memory. -/
theorem Handled.memory_wf {i : Instr} {s t : State} (h : Handled i s t) (hwf : Memory.wf s.config s.mem = true) :
    Memory.wf t.config t.mem = true := by
  cases i
  case ret => obtain ⟨k, -, rfl⟩ := h; exact hwf
  case call => obtain ⟨k, -, -, rfl⟩ := h; exact hwf
  case jpV0 => rcases h with ⟨-, rfl⟩ | ⟨-, rfl⟩ <;> exact hwf
  case ldVxK => rcases h with ⟨k, -, rfl⟩ | ⟨-, rfl⟩ <;> exact hwf
  case rnd =>
    obtain ⟨bs, n, hport⟩ := s.consumeDraw_eq
    rw [h, hport]
    exact hwf
  case drw => obtain ⟨f, hit, rfl⟩ := h; exact hwf
  case skp | sknp => rw [h.2, State.skipIf_eq]; exact hwf
  case seImm | sneImm | seReg | sneReg => rw [h, State.skipIf_eq]; exact hwf
  case ldB | storeRegs => obtain ⟨m, hm, rfl⟩ := h; exact hm hwf
  case loadRegs => obtain ⟨rs, rfl, -⟩ := h; exact hwf
  all_goals rw [h]; exact hwf

/-- The largest target of `JP V0, NNN` (R25, R107): the sum does not wrap. -/
theorem toNat_offsetTarget (s : State) (nnn : Imm12) : (s.offsetTarget nnn).toNat = nnn.toNat + (s.reg 0).toNat := by
  have hn := nnn.isLt
  have hv := (s.reg 0).isLt
  simp only [State.offsetTarget, zextNNN, zextByte, BitVec.toNat_add, BitVec.toNat_setWidth]
  omega

theorem length_appendHistory (h : List Word) (op : Word) (hlen : h.length ≤ 50) :
    (appendHistory h op).length ≤ 50 := by
  unfold appendHistory
  split
  · simpa using hlen
  · next hle => exact Nat.le_of_not_lt hle

/-- Fault entry keeps the invariant, whatever the cause. -/
theorem State.Inv.takeFault {s : State} (h : s.Inv) (f : Fault) : (s.takeFault f).Inv where
  memory := h.memory
  history := h.history
  pc := h.pc
  pcWithoutJpV0 := h.pcWithoutJpV0
  stack := h.stack
  clear hf := by simp at hf
  caused _ := f.code_ne_zero

/-- The bounds of `pc` after a handler (R25), from those of the return stack and of the advanced `pc`. -/
theorem Handled.pc_le {i : Instr} {s t : State} (h : Handled i s t) (hlow : 2 ≤ s.pc.toNat)
    (hhigh : s.pc.toNat ≤ 0x1000) (hstack : ∀ k, k < s.sp.val → (s.stackAt k).toNat ≤ 0x1000) :
    t.pc.toNat ≤ 0x1002 ∨ s.config.pBnnn = .jpV0 ∧ t.pc.toNat ≤ 0x10FE := by
  rcases h.pc_cases with hpc | hpc | hpc | ⟨nnn, hpc⟩ | ⟨k, hk, hpc⟩ | ⟨hp, nnn, hpc⟩ <;> rw [hpc]
  · omega
  · left; bv_omega
  · left; bv_omega
  · have := nnn.isLt
    rw [toNat_zextNNN]
    omega
  · have := hstack k hk
    omega
  · have hn := nnn.isLt
    have hv := (s.reg 0).isLt
    rw [toNat_offsetTarget]
    exact .inr ⟨hp, by omega⟩

theorem config_notMem_writes (i : Instr) : .config ∉ writes i := by
  cases i <;> simp [writes]

theorem history_notMem_writes (i : Instr) : .history ∉ writes i := by
  cases i <;> simp [writes]

/-- A handler's effect on the advanced state, with the opcode kept and the timers ticked, keeps the invariant. -/
theorem State.Inv.of_handled {i : Instr} {s t : State} (hs : s.Inv) (hf : s.fault = false) (hpc : s.pc.toNat ≤ 0xFFE)
    (h : Handled i s.advance t) (op : Word) : (((t.record op).setDt (tickByte t.dt)).setSt (tickByte t.st)).Inv := by
  have hadvance : s.advance.pc.toNat = s.pc.toNat + 2 := by rw [State.advance_eq, State.setPc_pc]; bv_omega
  have hconfig : t.config = s.config := h.frame .config (config_notMem_writes i)
  have hhistory : t.history = s.history := h.frame .history (history_notMem_writes i)
  obtain ⟨hfault, hcause, hfinfo⟩ := h.latches
  have hbound := h.pc_le (by omega) (by omega) hs.stack
  refine ⟨h.memory_wf hs.memory, ?_, ?_, fun hp => ?_, fun k hk => ?_, fun _ => ?_, fun hfaulted => ?_⟩
  · exact length_appendHistory _ op (hhistory ▸ hs.history)
  · change t.pc.toNat ≤ 0x10FE
    rcases hbound with hle | ⟨-, hle⟩ <;> omega
  · rcases hbound with hle | ⟨hp', -⟩
    · exact hle
    · have hnop : s.config.pBnnn = .nop := hconfig ▸ hp
      exact absurd (hp'.symm.trans hnop) (by decide)
  · rcases h.stackAt_cases hk with ⟨hk', heq⟩ | heq
    · exact (congrArg BitVec.toNat heq).trans_le (hs.stack k hk')
    · exact (congrArg BitVec.toNat heq).trans_le (by omega)
  · obtain ⟨hc, hi⟩ := hs.clear hf
    exact ⟨hcause.trans hc, hfinfo.trans hi⟩
  · exact absurd (hfaulted.symm.trans (hfault.trans hf)) (by decide)

/-- Settles O53: a faulted core is unchanged, a fault writes the latches with a cause, and a handler keeps each clause
of the invariant. -/
theorem stepKeepsInvariant : Obligations.StepKeepsInvariant := by
  intro s t hs hstep
  rcases step_cases s with ⟨-, h⟩ | ⟨-, f, -, h⟩ | ⟨hf, hfetch, u, hu, -, -, h⟩ <;>
    obtain rfl := Host.Outcome.next.inj (h.symm.trans hstep)
  · exact hs
  · exact hs.takeFault f
  · exact hs.of_handled hf ((canFetch_iff s).1 hfetch) hu s.fetchWord

end Sys2Proof.Machine
end

section
/-! SUPPORT. The step as a whole (40_cycle_and_dispatch.md R90 to R96) and fault entry (60_exceptions.md R151 to R153),
each statement read off from `step_cases` and `exec_inv`. -/

namespace Sys2Proof.Machine

/-- Settles O6: each case of `step_cases` names the next state. -/
theorem everyStateHasANextStep : Obligations.EveryStateHasANextStep := by
  intro s
  rcases step_cases s with ⟨-, h⟩ | ⟨-, f, -, h⟩ | ⟨-, -, t, -, -, -, h⟩ <;> exact ⟨_, h⟩

theorem run_of_fault {s : State} (h : s.fault = true) (n : Nat) : Host.Core.run Sys2Proof.core n s = .next s := by
  induction n with
  | zero => exact run_zero s
  | succ n ih => rw [run_succ n (step_of_fault h), ih]

/-- Settles O7: a step of a faulted core is the identity, so by induction a run is; `load` checks the latch first. -/
theorem faultedCoreNeverChanges : Obligations.FaultedCoreNeverChanges :=
  fun _ h => ⟨run_of_fault h, fun _ => if_pos h⟩

/-- The inversion of a step that faults: the fault is taken in the state before the step. -/
theorem step_inv_of_fault {s t : State} (hs : s.fault = false) (h : step s = .next t) (ht : t.fault = true) :
    ∃ f, t = s.takeFault f := by
  rcases step_cases s with ⟨hs', -⟩ | ⟨-, f, -, hstep⟩ | ⟨-, -, u, -, -, hu, hstep⟩
  · simp [hs] at hs'
  · exact ⟨f, Host.Outcome.next.inj (h.symm.trans hstep)⟩
  · obtain rfl := Host.Outcome.next.inj (hstep.symm.trans h)
    exact absurd (hu.symm.trans ht) (by decide)

/-- Settles O8: such a step is `takeFault`, which writes the latches alone, and no cause has the code 0. -/
theorem faultEntryIsPrecise : Obligations.FaultEntryIsPrecise := by
  intro s t hs hstep ht
  obtain ⟨f, rfl⟩ := step_inv_of_fault hs hstep ht
  exact ⟨rfl, f.code_ne_zero⟩

/-- The inversion of a handler that faults: it takes a fault the instruction may raise. -/
theorem exec_inv_of_fault {i : Instr} {s t : State} (hs : s.fault = false) (h : exec i s = .next t)
    (ht : t.fault = true) : ∃ f, MayRaise i s f ∧ t.cause = f.code ∧ t.finfo = f.info := by
  rcases exec_inv h with hh | ⟨f, hf, rfl⟩
  · exact absurd ((hh.latches.1.trans hs).symm.trans ht) (by decide)
  · exact ⟨f, hf, rfl, rfl⟩

/-- Settles O9: by the table `MayRaise` of the faults each instruction may raise, which is empty for all others. -/
theorem onlyNamedInstructionsFault : Obligations.OnlyNamedInstructionsFault := by
  intro i s t hs hexec ht
  obtain ⟨f, hraise, hcause, hfinfo⟩ := exec_inv_of_fault hs hexec ht
  cases i
  case call nnn =>
    obtain ⟨hsp, rfl⟩ := hraise
    exact .inl ⟨nnn, rfl, Fin.ext hsp, hcause, hfinfo⟩
  case ret mid =>
    obtain ⟨hsp, rfl⟩ := hraise
    exact .inr (.inl ⟨mid, rfl, Fin.ext hsp, hcause, hfinfo⟩)
  case drw x y n =>
    rcases hraise with rfl | ⟨k, hk, hout, rfl⟩
    · exact .inr (.inr (.inr (.inl ⟨x, y, n, rfl, hcause, hfinfo⟩)))
    · exact .inr (.inr (.inl ⟨.inl ⟨x, y, n, rfl⟩, hcause, k, hk, hout, hfinfo⟩))
  case ldB x =>
    obtain ⟨k, hk, hout, rfl⟩ := hraise
    exact .inr (.inr (.inl ⟨.inr (.inl ⟨x, rfl⟩), hcause, k, hk, hout, hfinfo⟩))
  case storeRegs x =>
    obtain ⟨k, hk, hout, rfl⟩ := hraise
    exact .inr (.inr (.inl ⟨.inr (.inr (.inl ⟨x, rfl⟩)), hcause, k, hk, hout, hfinfo⟩))
  case loadRegs x =>
    obtain ⟨k, hk, hout, rfl⟩ := hraise
    exact .inr (.inr (.inl ⟨.inr (.inr (.inr ⟨x, rfl⟩)), hcause, k, hk, hout, hfinfo⟩))
  case skp x mid =>
    obtain ⟨hkey, rfl⟩ := hraise
    exact .inr (.inr (.inr (.inr ⟨x, mid, .inl rfl, hkey, hcause, hfinfo⟩)))
  case sknp x mid =>
    obtain ⟨hkey, rfl⟩ := hraise
    exact .inr (.inr (.inr (.inr ⟨x, mid, .inr rfl, hkey, hcause, hfinfo⟩)))
  all_goals exact hraise.elim

theorem appendHistory_of_lt {h : List Word} (op : Word) (hlen : h.length < 50) : appendHistory h op = h ++ [op] :=
  if_neg (by simp [historyDepth]; omega)

theorem appendHistory_of_full {h : List Word} (op : Word) (hlen : h.length = 50) :
    appendHistory h op = h.tail ++ [op] := by
  have hne : h ≠ [] := List.ne_nil_of_length_pos (by omega)
  rw [appendHistory, if_pos (by simp [historyDepth, hlen]), List.tail_append_of_ne_nil hne]

/-- A step that completes appends the fetched word to the log: no handler writes it (R96). -/
theorem history_of_ok {s t : State} (hs : s.fault = false) (h : step s = .next t) (ht : t.fault = false) :
    t.history = appendHistory s.history s.fetchWord := by
  obtain ⟨u, hu, rfl⟩ := step_inv_of_ok hs h ht
  have hhistory : u.history = s.history := hu.frame .history (history_notMem_writes _)
  exact congrArg (appendHistory · s.fetchWord) hhistory

/-- Settles O11: a fault writes the latches alone; a step that completes appends, which evicts only from a full log. -/
theorem historyKeepsTheLastFifty : Obligations.HistoryKeepsTheLastFifty := by
  intro s t hs _ hstep
  refine ⟨fun ht => ?_, fun ht hlen => ?_, fun ht hlen => ?_⟩
  · obtain ⟨f, rfl⟩ := step_inv_of_fault hs hstep ht
    rfl
  · rw [history_of_ok hs hstep ht, appendHistory_of_lt _ hlen]; rfl
  · rw [history_of_ok hs hstep ht, appendHistory_of_full _ hlen]; rfl

/-- Settles O5: the three clauses are the three branches of `step`; the decoded bytes are the fetched word. -/
theorem stepRunsDecodedInstruction : Obligations.StepRunsDecodedInstruction := by
  refine fun s => ⟨step_of_fault, fun hs hpc => ?_, fun hs hpc i rest t hdecode hexec => ?_⟩
  · exact step_of_unfetchable hs (decide_eq_false (Nat.not_le.2 hpc))
  · have hi : s.fetchInstr = i := congrArg Prod.fst (Except.ok.inj hdecode)
    have hstep := step_of_exec hs ((canFetch_iff s).2 hpc) (hi ▸ hexec)
    refine ⟨fun ht => ?_, fun ht => ?_⟩
    · rw [hstep, finish_of_fault _ ht]
    · rw [hstep, finish_of_ok _ ht]; rfl

/-- Settles O4: eight words, decoded under both values of the parameter. -/
theorem writtenWordsDecode : Obligations.WrittenWordsDecode := by
  intro p
  cases p <;> decide

end Sys2Proof.Machine
end

section
/-! SUPPORT. Memory (20_memory.md R52 to R58): the primitives in terms of the statements, the loader
(70_reset_and_hazards.md R184) as a write of several bytes, and the state after `new()`. -/

namespace Sys2Proof.Machine

theorem setByte_frame (s : State) (a : Nat) (v : Byte) : Frame [.memory] s (s.setByte a v) := by
  intro p hp
  cases p <;> simp_all [StatePart.same]

/-- Replacing memory changes memory alone. -/
theorem withMem_frame (s : State) (m : Memory) : Frame [.memory] s { s with mem := m } := by
  intro p hp
  cases p
  case memory => simp at hp
  case registers => exact fun _ => rfl
  case latches => exact ⟨rfl, rfl, rfl⟩
  case random => exact ⟨rfl, rfl⟩
  all_goals exact rfl

theorem memWrite_of_le (s : State) {a : Nat} (v : Byte) (ha : a ≤ 0xFFF) : s.memWrite a v = .ok (s.setByte a v) :=
  if_pos ha

/-- Settles O43: both primitives check the range first; a write is then `setByte`. -/
theorem memoryPrimitivesCheckTheRange : Obligations.MemoryPrimitivesCheckTheRange := by
  refine fun s a v hwf => ⟨fun ha => ⟨if_pos ha, s.setByte a v, memWrite_of_le s v ha, ?_, fun b hb => ?_, ?_, ?_⟩,
    fun ha => ⟨if_neg (Nat.not_le.2 ha), if_neg (Nat.not_le.2 ha)⟩⟩
  · rw [s.byteAt_setByte a v a hwf, if_pos rfl]
  · rw [s.byteAt_setByte a v b hwf, if_neg hb]
  · exact s.wf_setByte a v ha hwf
  · exact setByte_frame s a v

/-- Settles O44: the canonical form is determined by what it reads as. -/
theorem equalReadsMeanEqualMemory : Obligations.EqualReadsMeanEqualMemory :=
  fun c _ _ h₁ h₂ hreads => Memory.ext_wfFrom c h₁ h₂ hreads

/-- Settles O45: the word fetched is the two bytes at `pc`, read after the write. -/
theorem storesAreSeenByTheNextFetch : Obligations.StoresAreSeenByTheNextFetch := by
  intro s a v hwf ha
  have hfetch : (s.setByte a v).fetchWord =
      (s.setByte a v).byteAt s.pc.toNat ++ (s.setByte a v).byteAt (s.pc.toNat + 1) := rfl
  refine ⟨s.setByte a v, memWrite_of_le s v ha, fun hpc => ?_, fun hpc => ?_⟩ <;>
    rw [hfetch, s.byteAt_setByte a v _ hwf, s.byteAt_setByte a v _ hwf]
  · rw [if_pos hpc, if_neg (by omega), hpc]
  · rw [if_neg (by omega), if_pos hpc]

/-! ### The loader (R184) -/

/-- Bytes that fit are copied as `MemWrite` would write them. -/
theorem memWriteAll_eq_copyBytes (vs : List Byte) (s : State) (a : Nat) (hfit : a + vs.length ≤ topAddress + 1) :
    s.memWriteAll a vs = .ok (s.copyBytes a vs) := by
  induction vs generalizing s a with
  | nil => rfl
  | cons v vs ih =>
    rw [List.length_cons] at hfit
    calc s.memWriteAll a (v :: vs)
      _ = (s.setByte a v).memWriteAll (a + 1) vs := by
        rw [State.memWriteAll, memWrite_of_le s v (show a ≤ topAddress by omega)]; rfl
      _ = .ok (s.copyBytes a (v :: vs)) := ih (s.setByte a v) (a + 1) (by omega)

/-- A `load` that fits: all bytes land, in place and nowhere else, and only memory differs. -/
theorem load_spec {s : State} {bytes : List Byte} (hs : s.fault = false) (hwf : Memory.wf s.config s.mem = true)
    (hlen : bytes.length ≤ 3584) : ∃ m, s.load bytes = { s with mem := m } ∧ Memory.wf s.config m = true ∧
      (∀ k v, bytes[k]? = some v → Memory.get s.config m (0x200 + k) = v) ∧
      ∀ b, b < 0x200 ∨ 0x200 + bytes.length ≤ b → Memory.get s.config m b = s.byteAt b := by
  have hfit : progBase + bytes.length ≤ topAddress + 1 := by simp only [progBase, topAddress]; omega
  have hload : s.load bytes = s.copyBytes progBase bytes := by
    rw [State.load, if_neg (by simp [hs]), if_pos (show bytes.length ≤ maxRom from hlen)]
  obtain ⟨m, hm, hspec⟩ := (s.memWriteAll_spec bytes progBase hwf).1 hfit
  exact ⟨m, hload.trans (Except.ok.inj ((memWriteAll_eq_copyBytes bytes s progBase hfit).symm.trans hm)), hspec⟩

theorem load_of_gt {s : State} {bytes : List Byte} (hs : s.fault = false) (hlen : 3584 < bytes.length) :
    s.load bytes = s.takeFault (.loadRange bytes.length) := by
  rw [State.load, if_neg (by simp [hs]), if_neg (show ¬ bytes.length ≤ maxRom from Nat.not_le.2 hlen)]

theorem takeFault_frame_latches (s : State) (f : Fault) : Frame [.latches] s (s.takeFault f) := by
  intro p hp
  cases p <;> simp_all [StatePart.same]

/-- Settles O57: a `load` that fits is a write of its bytes at `0x200`; a longer one is fault entry. -/
theorem loadCopiesOrRefusesWhole : Obligations.LoadCopiesOrRefusesWhole := by
  refine fun s bytes hs hwf => ⟨fun hlen => ?_, fun hlen => ?_⟩
  · obtain ⟨m, hload, -, hin, hout⟩ := load_spec hs hwf hlen
    rw [hload]
    exact ⟨hin, hout, withMem_frame s m⟩
  · rw [load_of_gt hs hlen]
    exact ⟨rfl, rfl, rfl, takeFault_frame_latches s _⟩

/-! ### Reset (10_state.md R40, 70_reset_and_hazards.md R180, R181) -/

theorem resetWith_reg (c : Config) (r : Nibble) : (State.resetWith c).reg r = 0 :=
  Vector.getElem_replicate _

theorem resetWith_stackAt (c : Config) (k : Nat) : (State.resetWith c).stackAt k = 0 := by
  by_cases hk : k < 16 <;> simp [State.stackAt, State.resetWith, hk]

theorem resetWith_pixel (c : Config) (px py : Nat) : (State.resetWith c).pixel px py = false :=
  Framebuffer.pixel_clear px py

/-- What `new()` applied again leaves is the reset state under the same parameters, but for the inputs. -/
theorem renew_frame (s : State) : Frame [.keypad, .random] (State.resetWith s.config) s.renew := by
  intro p hp
  cases p
  case keypad | random => simp at hp
  case memory | registers => exact fun _ => rfl
  case latches => exact ⟨rfl, rfl, rfl⟩
  all_goals exact rfl

/-- Settles O56: the values of the first `new()`, which a later one leaves too. -/
theorem resetLeavesTheStatedValues : Obligations.ResetLeavesTheStatedValues := by
  intro c s h
  have hframe : Frame [.keypad, .random] (State.resetWith c) s := by
    rcases h with rfl | ⟨s', rfl, rfl⟩
    · exact Frame.refl _ _
    · exact renew_frame s'
  have hmem : ∀ a, s.byteAt a = Memory.initial c a := hframe .memory (by simp)
  have hreg := hframe .registers (by simp)
  have hstack : s.stack = (State.resetWith c).stack := hframe .stack (by simp)
  have hscreen : s.fb = (State.resetWith c).fb := hframe .screen (by simp)
  obtain ⟨hfault, hcause, hfinfo⟩ := hframe .latches (by simp)
  refine ⟨fun k hk => ⟨c.font[k], by simp [hk], ?_⟩, fun a ha => ?_, fun r => ?_, hframe .index (by simp),
    hframe .pc (by simp), fun k => ?_, hframe .sp (by simp), hframe .dt (by simp), hframe .st (by simp),
    fun px py => ?_, hframe .op (by simp), hframe .history (by simp), hfault, hcause, hfinfo,
    hframe .config (by simp)⟩
  · rw [hmem, Memory.initial_font c hk]
  · rw [hmem, Memory.initial_outside c ha]
  · exact (hreg r).trans (resetWith_reg c r)
  · rw [State.stackAt, hstack]; exact resetWith_stackAt c k
  · rw [State.pixel, hscreen]; exact resetWith_pixel c px py

/-- Settles O54: memory and the log are empty, no return address is in use, and the latches are clear. -/
theorem resetMeetsInvariant : Obligations.ResetMeetsInvariant := fun c =>
  { memory := rfl
    history := Nat.zero_le _
    pc := by simp [State.resetWith]
    pcWithoutJpV0 := fun _ => by simp [State.resetWith]
    stack := fun k hk => absurd hk (Nat.not_lt_zero k)
    clear := fun _ => ⟨rfl, rfl⟩
    caused := fun hf => absurd hf Bool.false_ne_true }

/-! ### The operations of the host keep the invariant (R160, R165) -/

theorem State.Inv.withMem {s : State} (h : s.Inv) {m : Memory} (hm : Memory.wf s.config m = true) :
    State.Inv { s with mem := m } :=
  { h with memory := hm }

theorem State.Inv.load {s : State} (h : s.Inv) (bytes : List Byte) : (s.load bytes).Inv := by
  by_cases hs : s.fault = true
  · rwa [State.load, if_pos hs]
  · rw [Bool.not_eq_true] at hs
    by_cases hlen : bytes.length ≤ 3584
    · obtain ⟨m, hload, hwf, -, -⟩ := load_spec hs h.memory hlen
      exact hload ▸ h.withMem hwf
    · exact load_of_gt hs (Nat.not_le.1 hlen) ▸ h.takeFault _

/-- The keypad and the random port are not in the invariant. -/
theorem State.Inv.setKeys {s : State} (h : s.Inv) (ks : Vector Bool 16) : (s.setKeys ks).Inv := { h with }

theorem State.Inv.offerDraws {s : State} (h : s.Inv) (bytes : List Byte) : (s.offerDraws bytes).Inv := { h with }

theorem renew_inv (s : State) : s.renew.Inv := { resetMeetsInvariant s.config with }

/-- Settles O55: by induction on the protocol, each move of the host and each step keeps the invariant. -/
theorem reachableStatesMeetInvariant : Obligations.ReachableStatesMeetInvariant := by
  intro ph s h
  induction h with
  | new c ks => exact State.Inv.setKeys (resetMeetsInvariant c) ks
  | renew ph s _ _ => exact renew_inv s
  | load s bytes _ ih => exact ih.load bytes
  | keypad ph s ks _ ih => exact ih.setKeys ks
  | draws ph s bytes _ ih => exact ih.offerDraws bytes
  | step ph s t _ hstep ih => exact stepKeepsInvariant s t ih hstep

end Sys2Proof.Machine
end

section
/-! SUPPORT. The run with no program loaded (70_reset_and_hazards.md R193): the program region reads as zero, every
fetched word is `CLS`, and a step of `CLS` leaves the run as it was, two addresses further. -/

namespace Sys2Proof.Machine

/-- Where the run from reset with empty memory stands after `n` steps that completed. -/
structure EmptyRun (c : Config) (n : Nat) (s : State) : Prop where
  memory : ∀ a, s.byteAt a = Memory.initial c a
  pc : s.pc.toNat = 0x200 + 2 * n
  fault : s.fault = false
  screen : ∀ px py, s.pixel px py = false

theorem decodeWord_zero (p : PBnnn) : decodeWord p 0 = .cls 0 := by
  cases p <;> decide

theorem EmptyRun.fetchInstr {c : Config} {n : Nat} {s : State} (h : EmptyRun c n s) : s.fetchInstr = .cls 0 := by
  have hpc := h.pc
  have hword : s.fetchWord = 0 := by
    rw [State.fetchWord, State.wordAt, h.memory, h.memory, Memory.initial_above c (by omega),
      Memory.initial_above c (by omega)]
    rfl
  rw [State.fetchInstr, hword, decodeWord_zero]

theorem EmptyRun.step {c : Config} {n : Nat} {s : State} (h : EmptyRun c n s) (hn : n < 1792) :
    ∃ t, step s = .next t ∧ EmptyRun c (n + 1) t := by
  have hpc := h.pc
  have hframe := finish_frame (s.advance.setFb Framebuffer.clear) s.fetchWord
  refine ⟨_, step_of_exec h.fault ((canFetch_iff s).2 (by omega)) (by rw [h.fetchInstr, exec_cls]), ?_⟩
  refine ⟨fun a => ?_, ?_, (hframe .latches (by simp)).1.trans h.fault, fun px py => ?_⟩
  · exact (hframe .memory (by simp) a).trans (h.memory a)
  · have hadvanced : ((s.advance.setFb Framebuffer.clear).finish s.fetchWord).pc = s.pc + 2 := hframe .pc (by simp)
    rw [hadvanced]
    bv_omega
  · have hclear : ((s.advance.setFb Framebuffer.clear).finish s.fetchWord).fb = Framebuffer.clear :=
      hframe .screen (by simp)
    rw [State.pixel, hclear, Framebuffer.pixel_clear]

theorem emptyRun_of_reset (c : Config) {n : Nat} (hn : n ≤ 1792) :
    ∃ t, Host.Core.run Sys2Proof.core n (State.resetWith c) = .next t ∧ EmptyRun c n t := by
  induction n with
  | zero => exact ⟨_, run_zero _, ⟨fun _ => rfl, rfl, rfl, resetWith_pixel c⟩⟩
  | succ n ih =>
    obtain ⟨t, hrun, ht⟩ := ih (by omega)
    obtain ⟨u, hstep, hu⟩ := ht.step hn
    exact ⟨u, by rw [run_add n 1 hrun, run_succ 0 hstep, run_zero], hu⟩

/-- Settles O58: by induction on the steps; after 1792 of them `pc` is the first address that cannot be fetched from. -/
theorem emptyMemoryRunsClearScreen : Obligations.EmptyMemoryRunsClearScreen := by
  refine fun c => ⟨fun n hn => ?_, ?_⟩
  · obtain ⟨t, hrun, ht⟩ := emptyRun_of_reset c hn
    exact ⟨t, hrun, ht.pc, ht.fault, ht.screen⟩
  · obtain ⟨t, hrun, ht⟩ := emptyRun_of_reset c (Nat.le_refl 1792)
    have hpc : t.pc = 0x1000 := BitVec.eq_of_toNat_eq ht.pc
    have hstep := step_of_unfetchable ht.fault (decide_eq_false (by rw [hpc]; decide))
    refine ⟨State.takeFault t (.fetchRange t.pc), ?_, hpc, rfl, rfl, hpc⟩
    rw [run_add 1792 1 hrun, run_succ 0 hstep, run_zero]

end Sys2Proof.Machine
end

section
/-! SUPPORT. The output ports (60_exceptions.md R162, R163): index `y * 64 + x` of the list shown is pixel `(x, y)`. -/

namespace Sys2Proof.Machine

theorem length_framebuffer (s : State) : s.framebuffer.length = 2048 := by
  simp [State.framebuffer, fbHeight, fbWidth]

theorem framebuffer_getElem? (s : State) {px py : Nat} (hx : px < 64) (hy : py < 32) :
    s.framebuffer[py * 64 + px]? = some (pixelValue (s.pixel px py)) := by
  have hrange : py * 64 + px < fbHeight * fbWidth := by simp only [fbHeight, fbWidth]; omega
  have hcol : (py * 64 + px) % fbWidth = px := by simp only [fbWidth]; omega
  have hrow : (py * 64 + px) / fbWidth = py := by simp only [fbWidth]; omega
  simp only [State.framebuffer, List.getElem?_map, List.getElem?_range hrange, Option.map_some, hcol, hrow]

/-- Settles O59: each value shown is that of its pixel; the sound output compares `st` with 0. -/
theorem portsShowScreenAndSound : Obligations.PortsShowScreenAndSound := by
  refine fun s => ⟨length_framebuffer s, fun px py hx hy => ⟨fun hset => ?_, fun hclear => ?_⟩, ?_⟩
  · rw [framebuffer_getElem? s hx hy, hset]; rfl
  · rw [framebuffer_getElem? s hx hy, hclear]; rfl
  · rw [State.soundActive, bne_iff_ne, ne_eq, ne_eq, BitVec.toNat_eq]; rfl

end Sys2Proof.Machine
end

section
/-! SUPPORT. What an instruction leaves alone (10_state.md): a part of the state that differs after it is in its row of
`writes`, so each rule of the whole machine is a reading of that table; the flag register needs the effects
themselves. -/

namespace Sys2Proof.Machine

/-- A part that differs after an instruction, other than `pc` and the latches, is one the instruction may write. -/
theorem mem_writes_of_not_same {i : Instr} {s t : State} {p : StatePart} (h : exec i s = .next t)
    (hp : p ∉ [.pc, .latches]) (hne : ¬ p.same s t) : p ∈ writes i := by
  by_contra hout
  exact hne (exec_frame h p (by simp_all))

theorem memory_mem_writes_iff (i : Instr) : .memory ∈ writes i ↔ (∃ x, i = .ldB x) ∨ ∃ x, i = .storeRegs x := by
  cases i <;> simp [writes]

theorem sp_mem_writes_iff (i : Instr) : .sp ∈ writes i ↔ (∃ nnn, i = .call nnn) ∨ ∃ mid, i = .ret mid := by
  cases i <;> simp [writes]

theorem stack_mem_writes_iff (i : Instr) : .stack ∈ writes i ↔ ∃ nnn, i = .call nnn := by
  cases i <;> simp [writes]

theorem screen_mem_writes_iff (i : Instr) : .screen ∈ writes i ↔ (∃ mid, i = .cls mid) ∨ ∃ x y n, i = .drw x y n := by
  cases i <;> simp [writes]

theorem index_mem_writes_iff (i : Instr) :
    .index ∈ writes i ↔ (∃ nnn, i = .ldI nnn) ∨ (∃ x, i = .addI x) ∨ ∃ x, i = .ldF x := by
  cases i <;> simp [writes]

theorem random_mem_writes_iff (i : Instr) : .random ∈ writes i ↔ ∃ x nn, i = .rnd x nn := by
  cases i <;> simp [writes]

theorem keypad_notMem_writes (i : Instr) : .keypad ∉ writes i := by
  cases i <;> simp [writes]

/-- Settles O46: memory is in the rows of `LD B` and `LD [I]` alone. -/
theorem onlyBcdAndDumpWriteMemory : Obligations.OnlyBcdAndDumpWriteMemory := by
  rintro i s t h ⟨a, ha⟩
  exact (memory_mem_writes_iff i).1 (mem_writes_of_not_same h (by decide) fun hsame => ha (hsame a))

/-- Settles O47: `sp` is in the rows of `CALL` and `RET`, the stack in that of `CALL` alone. -/
theorem onlyCallAndReturnMoveTheStack : Obligations.OnlyCallAndReturnMoveTheStack := fun i _ _ h =>
  ⟨fun hsp => (sp_mem_writes_iff i).1 (mem_writes_of_not_same h (by decide) hsp),
    fun hstack => (stack_mem_writes_iff i).1 (mem_writes_of_not_same h (by decide) hstack)⟩

/-- Settles O48: the screen is in the rows of `CLS` and `DRW` alone. -/
theorem onlyDrawAndClearChangeTheScreen : Obligations.OnlyDrawAndClearChangeTheScreen := fun i _ _ h hfb =>
  (screen_mem_writes_iff i).1 (mem_writes_of_not_same h (by decide) hfb)

/-- Settles O49: `I` is in the rows of `LD I`, `ADD I` and `LD F` alone. -/
theorem onlyIndexInstructionsChangeTheIndex : Obligations.OnlyIndexInstructionsChangeTheIndex := fun i _ _ h hI =>
  (index_mem_writes_iff i).1 (mem_writes_of_not_same h (by decide) hI)

/-- Settles O51: the keypad and the parameters are in no row, the random port in that of `RND` alone. -/
theorem inputsAndParametersAreNotWritten : Obligations.InputsAndParametersAreNotWritten := by
  intro i s t h
  refine ⟨?_, ?_, fun hport => ?_⟩
  · exact exec_frame h .keypad (by simp [keypad_notMem_writes])
  · exact exec_frame h .config (by simp [config_notMem_writes])
  · refine (random_mem_writes_iff i).1 (mem_writes_of_not_same h (by decide) ?_)
    rintro ⟨hdraws, hcount⟩
    exact hport.elim (absurd hdraws) (absurd hcount)

/-! ### The flag register (10_state.md R22) -/

theorem eq_flag_of_setReg_ne {s : State} {x : Nibble} {v : Byte} (h : (s.setReg x v).reg 15 ≠ s.reg 15) : x = 15 :=
  by_contra fun hx => h (s.reg_setReg_other v (Ne.symm hx))

theorem consumeDraw_reg (s : State) (r : Nibble) : s.consumeDraw.reg r = s.reg r := by
  obtain ⟨bs, n, h⟩ := s.consumeDraw_eq
  rw [h]
  rfl

theorem flagByte_eq_zero_or_one (b : Bool) : flagByte b = 0 ∨ flagByte b = 1 := by
  cases b <;> decide

/-- A flag value is 0 or 1 unless the register written after it is the flag register itself. -/
theorem setFlagThenReg_reg_flag_cases (s : State) (b : Bool) (x : Nibble) (v : Byte) :
    x = 15 ∨ x ≠ 15 ∧ ((s.setFlagThenReg b x v).reg 15 = 0 ∨ (s.setFlagThenReg b x v).reg 15 = 1) := by
  by_cases hx : x = 15
  · exact .inl hx
  · exact .inr ⟨hx, by rw [setFlagThenReg_reg_flag s b v hx]; exact flagByte_eq_zero_or_one b⟩

/-- Settles O50: an instruction that writes one register changes the flag only when that register is the flag; the
instructions that write the flag leave a flag value in it unless their result goes there; no other writes a register. -/
theorem onlyFlagWritersChangeTheFlag : Obligations.OnlyFlagWritersChangeTheFlag := by
  intro i s t h hne
  rcases exec_inv h with hh | ⟨f, -, rfl⟩
  · cases i
    case ldImm x nn | addImm x nn =>
      obtain rfl := hh
      obtain rfl := eq_flag_of_setReg_ne hne
      exact .inr ⟨0, nn, by simp⟩
    case ldReg x y | orReg x y | andReg x y | xorReg x y =>
      obtain rfl := hh
      obtain rfl := eq_flag_of_setReg_ne hne
      exact .inr ⟨y, 0, by simp⟩
    case addReg x y | sub x y | subn x y | shr x y | shl x y =>
      obtain rfl := hh
      rcases setFlagThenReg_reg_flag_cases s _ x _ with rfl | ⟨hx, hflag⟩
      · exact .inr ⟨y, 0, by simp⟩
      · exact .inl ⟨by simpa using hx, hflag⟩
    case rnd x nn =>
      obtain rfl := hh
      obtain rfl := eq_flag_of_setReg_ne (consumeDraw_reg s 15 ▸ hne)
      exact .inr ⟨0, nn, by simp⟩
    case drw x y n =>
      obtain ⟨f, hit, rfl⟩ := hh
      exact .inl ⟨by simp, by rw [← State.setFlag_eq, setFlag_reg_flag]; exact flagByte_eq_zero_or_one hit⟩
    case ldVxDt x =>
      obtain rfl := hh
      obtain rfl := eq_flag_of_setReg_ne hne
      exact .inr ⟨0, 0, by simp⟩
    case ldVxK x =>
      rcases hh with ⟨k, -, rfl⟩ | ⟨-, rfl⟩
      · obtain rfl := eq_flag_of_setReg_ne hne
        exact .inr ⟨0, 0, by simp⟩
      · exact absurd rfl hne
    case loadRegs x =>
      obtain ⟨rs, -, habove⟩ := hh
      have hx : ¬ x.toNat < 15 := fun hlt => hne (habove 15 hlt)
      obtain rfl : x = 15 := BitVec.eq_of_toNat_eq (show x.toNat = 15 by have := x.isLt; omega)
      exact .inr ⟨0, 0, by simp⟩
    all_goals exact absurd (hh.frame .registers (by simp [writes]) 15) hne
  · exact absurd rfl hne

end Sys2Proof.Machine
end

section
/-! SUPPORT. The keypad (60_exceptions.md R161): every operation of the state but the reads of a key commutes with the
host's write of the keypad, so an instruction made of those operations does too. -/

namespace Sys2Proof.Machine

section
variable (s : State) (ks : Vector Bool 16)

theorem skipIf_setKeys (b : Bool) : (s.setKeys ks).skipIf b = (s.skipIf b).setKeys ks := by
  cases b <;> rfl

theorem consumeDraw_setKeys : (s.setKeys ks).consumeDraw = s.consumeDraw.setKeys ks := by
  unfold State.consumeDraw
  rw [State.setKeys_draws]
  split <;> rfl

theorem push_setKeys (v : Word) : (s.setKeys ks).push v = (s.push v).map (·.setKeys ks) := by
  unfold State.push
  split
  · next h => rw [dif_pos (show s.sp.val < 16 from h)]; rfl
  · next h => rw [dif_neg (show ¬ s.sp.val < 16 from h)]; rfl

theorem popPc_setKeys : (s.setKeys ks).popPc = s.popPc.map (·.setKeys ks) := by
  unfold State.popPc
  split
  · next h => rw [dif_pos (show 0 < s.sp.val from h)]; rfl
  · next h => rw [dif_neg (show ¬ 0 < s.sp.val from h)]; rfl

theorem memWriteAll_setKeys (vs : List Byte) (a : Nat) :
    (s.setKeys ks).memWriteAll a vs = (s.memWriteAll a vs).map (·.setKeys ks) := by
  induction vs generalizing s a with
  | nil => rfl
  | cons v vs ih =>
    by_cases ha : a ≤ topAddress
    · have hstep : ∀ u : State, u.memWriteAll a (v :: vs) = (u.setByte a v).memWriteAll (a + 1) vs := fun u => by
        rw [State.memWriteAll, memWrite_of_le u v ha]; rfl
      rw [hstep, hstep]
      exact ih (s.setByte a v) (a + 1)
    · simp [State.memWriteAll, State.memWrite, ha, Except.bind, Except.map]

theorem memReadAll_setKeys (n a : Nat) : (s.setKeys ks).memReadAll a n = s.memReadAll a n := by
  induction n generalizing a with
  | zero => rfl
  | succ n ih => rw [State.memReadAll, State.memReadAll, ih]; rfl

theorem setRegsFrom_setKeys (vs : List Byte) (k : Nat) :
    (s.setKeys ks).setRegsFrom k vs = (s.setRegsFrom k vs).setKeys ks := by
  induction vs generalizing s k with
  | nil => rfl
  | cons v vs ih => exact ih (s.setReg (BitVec.ofNat 4 k) v) (k + 1)

theorem drawRows_setKeys (x0 y0 : Nat) (rows : List Nat) (d : Drawing) :
    drawRows (s.setKeys ks) x0 y0 rows d = drawRows s x0 y0 rows d := by
  induction rows generalizing d with
  | nil => rfl
  | cons row rows ih => rw [drawRows, drawRows, funext ih]; rfl

variable {s} in
/-- A handler that ends in `settle` commutes with the keypad when what it settles does. -/
theorem settle_setKeys {t : State} {r r' : Except Fault State} (hr : r' = r.map (·.setKeys ks))
    (h : s.settle r = .next t) : (s.setKeys ks).settle r' = .next (t.setKeys ks) := by
  subst hr
  cases r <;> obtain rfl := Host.Outcome.next.inj h <;> rfl

end

/-- Settles O52: instruction by instruction, the operations of its handler commute with the write of the keypad. -/
theorem keypadReachesOnlyKeyInstructions : Obligations.KeypadReachesOnlyKeyInstructions := by
  intro i ks s t hskp hsknp hldVxK h
  cases i
  case skp x mid => exact absurd rfl (hskp x mid)
  case sknp x mid => exact absurd rfl (hsknp x mid)
  case ldVxK x => exact absurd rfl (hldVxK x)
  case ret => exact settle_setKeys ks (popPc_setKeys s ks) h
  case call nnn =>
    refine settle_setKeys ks ?_ h
    change ((s.setKeys ks).push s.pc).map (·.setPc (zextNNN nnn)) = _
    rw [push_setKeys]
    cases s.push s.pc <;> rfl
  case seImm | sneImm | seReg | sneReg =>
    obtain rfl := Host.Outcome.next.inj h
    exact congrArg Host.Outcome.next (skipIf_setKeys s ks _)
  case jpV0 nnn =>
    simp only [exec, execJpV0, State.setKeys_config] at h ⊢
    split at h <;> obtain rfl := Host.Outcome.next.inj h <;> rfl
  case rnd x nn =>
    obtain rfl := Host.Outcome.next.inj h
    exact congrArg (fun u : State => Host.Outcome.next (u.setReg x (s.randByte &&& nn))) (consumeDraw_setKeys s ks)
  case drw x y n =>
    refine settle_setKeys ks ?_ h
    rw [drawRows_setKeys]
    change Except.map _ (drawRows s (s.spriteCol x) (s.spriteRow y) (List.range n.toNat) (s.fb, false)) = _
    cases drawRows s (s.spriteCol x) (s.spriteRow y) (List.range n.toNat) (s.fb, false) <;> rfl
  case ldB | storeRegs => exact settle_setKeys ks (memWriteAll_setKeys s ks _ _) h
  case loadRegs x =>
    refine settle_setKeys ks ?_ h
    rw [memReadAll_setKeys, funext (setRegsFrom_setKeys s ks · 0)]
    change Except.map _ (s.memReadAll (s.effAddr 0) (x.toNat + 1)) = _
    cases s.memReadAll (s.effAddr 0) (x.toNat + 1) <;> rfl
  all_goals
    obtain rfl := Host.Outcome.next.inj h
    rfl

end Sys2Proof.Machine
end

section
/-! SUPPORT. Subroutines and the offset jump (41_flow_control.md R101, R102, R107): the rows that select them, their
handlers at both ends of the stack, and a `CALL` followed by a `RET`. -/

namespace Sys2Proof.Laws

theorem decodeWord_call {op : Word} (h : topNibble op = 0x2#4) (p : PBnnn) : decodeWord p op = .call (fieldNNN op) := by
  simp [decodeWord, h]

theorem decodeWord_ret {op : Word} (htop : topNibble op = 0x0#4) (hlow : fieldN op = 0xE#4) (p : PBnnn) :
    decodeWord p op = .ret (fieldMid op) := by
  simp [decodeWord, htop, decode0, hlow]

theorem decodeWord_jpV0 {op : Word} (h : topNibble op = 0xB#4) : decodeWord .jpV0 op = .jpV0 (fieldNNN op) := by
  simp [decodeWord, h]

theorem decodeWord_nop_of_topB {op : Word} (h : topNibble op = 0xB#4) : decodeWord .nop op = .nop op := by
  simp [decodeWord, h]

end Sys2Proof.Laws

namespace Sys2Proof.Machine

/-- What a handler leaves that raised the fault `f` (R152). -/
theorem annulledWith_takeFault (s : State) (f : Fault) :
    AnnulledWith f.code f.info s ((s.setPc (s.pc - 2)).takeFault f) :=
  ⟨rfl, rfl, rfl, rfl, takeFault_frame s _ f⟩

/-- The state after a `CALL` of `nnn` from `s` with room on the stack (R101). -/
def State.called (s : State) (nnn : Imm12) (h : s.sp.val < 16) : State :=
  { s with stack := s.stack.set s.sp.val s.pc h, sp := ⟨s.sp.val + 1, by omega⟩, pc := zextNNN nnn }

theorem exec_call_of_lt (nnn : Imm12) {s : State} (h : s.sp.val < 16) :
    exec (.call nnn) s = .next (s.called nnn h) := by
  simp only [exec, execCall, State.push, dif_pos h]
  rfl

theorem exec_call_of_full (nnn : Imm12) {s : State} (h : s.sp.val = 16) :
    exec (.call nnn) s = .next ((s.setPc (s.pc - 2)).takeFault (.stackOverflow s.site)) := by
  simp only [exec, execCall, State.push, dif_neg (show ¬ s.sp.val < 16 by omega)]
  rfl

theorem called_stackAt_sp (s : State) (nnn : Imm12) (h : s.sp.val < 16) :
    (s.called nnn h).stackAt s.sp.val = s.pc := by
  simp [State.stackAt, State.called, h]

theorem called_stackAt_of_ne (s : State) (nnn : Imm12) (h : s.sp.val < 16) {k : Nat} (hk : k ≠ s.sp.val) :
    (s.called nnn h).stackAt k = s.stackAt k := by
  simp [State.stackAt, State.called, hk.symm]

/-- The state after a `RET` from `s` with an entry on the stack (R102). -/
def State.returned (s : State) : State :=
  { s with sp := ⟨s.sp.val - 1, by omega⟩, pc := s.stackAt (s.sp.val - 1) }

theorem exec_ret_of_pos (mid : Byte) {s : State} (h : 0 < s.sp.val) : exec (.ret mid) s = .next s.returned := by
  simp only [exec, execRet, State.popPc, dif_pos h]
  rfl

theorem exec_ret_of_empty (mid : Byte) {s : State} (h : s.sp.val = 0) :
    exec (.ret mid) s = .next ((s.setPc (s.pc - 2)).takeFault (.stackUnderflow s.site)) := by
  simp only [exec, execRet, State.popPc, dif_neg (show ¬ 0 < s.sp.val by omega)]
  rfl

theorem exec_jpV0_of_jpV0 (nnn : Imm12) {s : State} (h : s.config.pBnnn = .jpV0) :
    exec (.jpV0 nnn) s = .next (s.setPc (s.offsetTarget nnn)) := by
  simp only [exec, execJpV0, h]

theorem exec_jpV0_of_nop (nnn : Imm12) {s : State} (h : s.config.pBnnn = .nop) : exec (.jpV0 nnn) s = .next s := by
  simp only [exec, execJpV0, h]

/-- Settles O14: the key `2` selects `CALL`, whose push succeeds exactly below `sp = 16`. -/
theorem callPushesThenJumps : Obligations.CallPushesThenJumps := by
  refine ⟨Laws.selects_topMask fun p _ h => Laws.decodeWord_call h p, fun nnn s => ⟨fun h => ?_, fun h => ?_⟩⟩
  · refine ⟨_, exec_call_of_lt nnn h, called_stackAt_sp s nnn h, fun k hk => called_stackAt_of_ne s nnn h hk, rfl,
      toNat_zextNNN nnn, ?_⟩
    exact Handled.frame (i := .call nnn) ⟨_, h, rfl, rfl⟩
  · exact ⟨_, exec_call_of_full nnn h, annulledWith_takeFault s _⟩

/-- Settles O15: the keys `0` and `E` select `RET`, whose pop succeeds exactly above `sp = 0`. -/
theorem returnPopsIntoPc : Obligations.ReturnPopsIntoPc := by
  refine ⟨Laws.selects_topAndLowMask fun p _ htop hlow => Laws.decodeWord_ret htop hlow p,
    fun mid s => ⟨fun h => ?_, fun h => ?_⟩⟩
  · refine ⟨_, exec_ret_of_pos mid h, rfl, rfl, ?_⟩
    exact Handled.frame (i := .ret mid) ⟨⟨s.sp.val - 1, by omega⟩, Nat.sub_add_cancel h, rfl⟩
  · exact ⟨_, exec_ret_of_empty mid h, annulledWith_takeFault s _⟩

/-- Settles O18: the key `B` selects `JP V0` under one value of the parameter and `NOP` under the other. -/
theorem jumpWithOffsetByParameter : Obligations.JumpWithOffsetByParameter := by
  have htop : ∀ op : Word, op &&& 0xF000 = 0xB000 → topNibble op = 0xB#4 := fun op hop =>
    Laws.topNibble_of_mask hop (by decide)
  refine ⟨fun op hop => Laws.decodeWord_jpV0 (htop op hop), fun op hop => Laws.decodeWord_nop_of_topB (htop op hop),
    fun nnn s => ⟨fun hp => ?_, fun hp => ?_⟩⟩
  · exact ⟨_, exec_jpV0_of_jpV0 nnn hp, toNat_offsetTarget s nnn, Handled.frame (i := .jpV0 nnn) (.inl ⟨hp, rfl⟩)⟩
  · exact ⟨s, exec_jpV0_of_nop nnn hp, Frame.refl [] s⟩

/-- Settles O19: the entry the `RET` pops is the one the `CALL` pushed, the address after the call. -/
theorem returnFollowsTheCallSite : Obligations.ReturnFollowsTheCallSite := by
  intro nnn mid s t hs hpc hcall hsp hstep htpc hret
  have hcalled := step_of_exec hs ((canFetch_iff s).2 hpc) (hcall ▸ exec_call_of_lt nnn (s := s.advance) hsp)
  obtain rfl := Host.Outcome.next.inj (hcalled.symm.trans hstep)
  have hframe := finish_frame (s.advance.called nnn hsp) s.fetchWord
  generalize (s.advance.called nnn hsp).finish s.fetchWord = t at *
  have htsp : t.sp = (s.advance.called nnn hsp).sp := hframe .sp (by simp)
  have htstack : t.stack = (s.advance.called nnn hsp).stack := hframe .stack (by simp)
  have htfault : t.fault = false := (hframe .latches (by simp)).1.trans hs
  have htspval : t.sp.val = s.sp.val + 1 := congrArg Fin.val htsp
  have hreturned := step_of_exec htfault ((canFetch_iff t).2 htpc)
    (hret ▸ exec_ret_of_pos mid (s := t.advance) (show 0 < t.sp.val by omega))
  have hframe' := finish_frame t.advance.returned t.fetchWord
  refine ⟨_, hreturned, (hframe' .pc (by simp)).trans ?_, (hframe' .sp (by simp)).trans (Fin.ext ?_),
    (hframe' .latches (by simp)).1.trans htfault⟩
  · calc t.stackAt (t.sp.val - 1)
      _ = t.stackAt s.sp.val := by rw [htspval, Nat.add_sub_cancel]
      _ = (s.advance.called nnn hsp).stackAt s.sp.val := by rw [State.stackAt, htstack]; rfl
      _ = s.pc + 2 := called_stackAt_sp s.advance nnn hsp
  · change t.sp.val - 1 = s.sp.val
    omega

end Sys2Proof.Machine
end

section
/-! SUPPORT. Subtraction (42_arithmetic_logic.md R117, R118), the index register and the random byte (43_index_random.md
R126 to R128). -/

namespace Sys2Proof.Laws

theorem decode8_sub {op : Word} (h : fieldN op = 0x5#4) : decode8 op = .sub (fieldX op) (fieldY op) := by
  simp [decode8, h]

theorem decode8_subn {op : Word} (h : fieldN op = 0x7#4) : decode8 op = .subn (fieldX op) (fieldY op) := by
  simp [decode8, h]

theorem decodeF_addI {op : Word} (h : fieldNN op = 0x1E#8) : decodeF op = .addI (fieldX op) := by
  simp [decodeF, h]

theorem decodeF_ldF {op : Word} (h : fieldNN op = 0x29#8) : decodeF op = .ldF (fieldX op) := by
  simp [decodeF, h]

theorem decodeWord_rnd {op : Word} (h : topNibble op = 0xC#4) (p : PBnnn) :
    decodeWord p op = .rnd (fieldX op) (fieldNN op) := by
  simp [decodeWord, h]

end Sys2Proof.Laws

namespace Sys2Proof.Machine

theorem flagByte_noBorrow (a b : Byte) : flagByte (noBorrow a b) = if a.toNat ≥ b.toNat then 1 else 0 := by
  simp [flagByte, noBorrow]

theorem toNat_byte_sub (a b : Byte) : (a - b).toNat = (a.toNat + 256 - b.toNat) % 256 := by
  have hb := b.isLt
  rw [BitVec.toNat_sub]
  congr 1
  omega

theorem exec_sub (x y : Nibble) (s : State) :
    exec (.sub x y) s = .next (s.setFlagThenReg (noBorrow (s.reg x) (s.reg y)) x (s.reg x - s.reg y)) := rfl

theorem exec_subn (x y : Nibble) (s : State) :
    exec (.subn x y) s = .next (s.setFlagThenReg (noBorrow (s.reg y) (s.reg x)) x (s.reg y - s.reg x)) := rfl

/-- What an instruction does that writes the inverted borrow and then the difference `a - b`. -/
theorem exec_of_difference {i : Instr} {s : State} {x : Nibble} {a b : Byte}
    (hexec : exec i s = .next (s.setFlagThenReg (noBorrow a b) x (a - b))) :
    ∃ t, exec i s = .next t ∧ (t.reg x).toNat = (a.toNat + 256 - b.toNat) % 256 ∧
      (x ≠ 15 → t.reg 15 = if a.toNat ≥ b.toNat then 1 else 0) ∧ RegsExcept [x, 15] s t ∧ Frame [.registers] s t := by
  obtain ⟨t, ht, hx, hflag, hregs, hframe⟩ := exec_of_setFlagThenReg hexec
  exact ⟨t, ht, by rw [hx, toNat_byte_sub], fun hne => by rw [hflag hne, flagByte_noBorrow], hregs, hframe⟩

/-- Settles O25: the keys `8` and `5` or `7` select the subtractions, which differ in the order of the operands. -/
theorem subtractSetsNoBorrowAndDifference : Obligations.SubtractSetsNoBorrowAndDifference :=
  ⟨Laws.selects_family8 (by decide) fun _ h => Laws.decode8_sub h,
    Laws.selects_family8 (by decide) fun _ h => Laws.decode8_subn h,
    fun x y s => ⟨exec_of_difference (exec_sub x y s), exec_of_difference (exec_subn x y s)⟩⟩

theorem exec_addI (x : Nibble) (s : State) : exec (.addI x) s = .next (s.setI (s.I + zextByte (s.reg x))) := rfl

theorem exec_ldF (x : Nibble) (s : State) : exec (.ldF x) s = .next (s.setI (s.glyphAddr (s.reg x))) := rfl

theorem exec_rnd (x : Nibble) (nn : Byte) (s : State) :
    exec (.rnd x nn) s = .next (s.consumeDraw.setReg x (s.randByte &&& nn)) := rfl

theorem toNat_zextByte (v : Byte) : (zextByte v).toNat = v.toNat :=
  BitVec.toNat_setWidth_of_le (by decide)

/-- Every glyph address fits 16 bits, whatever the digit (R127). -/
theorem toNat_glyphAddr (s : State) (v : Byte) : (s.glyphAddr v).toNat = s.config.fontBase.val + 5 * v.toNat := by
  have hbase := s.config.fontBase.isLt
  have hv := v.isLt
  rw [State.glyphAddr, BitVec.toNat_ofNat]
  exact Nat.mod_eq_of_lt (by simp only [glyphBytes]; omega)

/-- Settles O28: the keys `F` and `1E` select `ADD I, Vx`, a sum of 16-bit words. -/
theorem addToIndexWrapsAtSixteenBits : Obligations.AddToIndexWrapsAtSixteenBits := by
  refine ⟨Laws.selects_familyF (by decide) fun _ h => Laws.decodeF_addI h, fun x s => ?_⟩
  refine ⟨_, exec_addI x s, ?_, Handled.frame (i := .addI x) rfl⟩
  rw [State.setI_I, BitVec.toNat_add, toNat_zextByte]

/-- Settles O29: the keys `F` and `29` select `LD F, Vx`, whose address is exact. -/
theorem glyphAddressIsNotMasked : Obligations.GlyphAddressIsNotMasked := by
  refine ⟨Laws.selects_familyF (by decide) fun _ h => Laws.decodeF_ldF h, fun x s => ?_⟩
  exact ⟨_, exec_ldF x s, toNat_glyphAddr s (s.reg x), Handled.frame (i := .ldF x) rfl⟩

theorem randByte_of_cons {s : State} {b : Byte} {bs : List Byte} (h : s.draws = b :: bs) : s.randByte = b := by
  rw [State.randByte, h]

theorem randByte_of_nil {s : State} (h : s.draws = []) : s.randByte = Config.randomByte s.drawCount := by
  rw [State.randByte, h]

theorem consumeDraw_of_cons {s : State} {b : Byte} {bs : List Byte} (h : s.draws = b :: bs) :
    s.consumeDraw = { s with draws := bs } := by
  rw [State.consumeDraw, h]

theorem consumeDraw_of_nil {s : State} (h : s.draws = []) :
    s.consumeDraw = { s with drawCount := s.drawCount + 1 } := by
  rw [State.consumeDraw, h]

/-- Settles O30: the key `C` selects `RND`; the sample is the head of the bytes lined up, else that of the counter. -/
theorem randomByteIsMasked : Obligations.RandomByteIsMasked := by
  refine ⟨Laws.selects_topMask fun p _ h => Laws.decodeWord_rnd h p, fun x nn s => ?_⟩
  refine ⟨_, s.randByte, exec_rnd x nn s, State.reg_setReg_same _ x _, fun b bs h => ⟨randByte_of_cons h, ?_, ?_⟩,
    fun h => ⟨randByte_of_nil h, ?_, ?_⟩, fun r hr => ?_, Handled.frame (i := .rnd x nn) rfl⟩
  · rw [State.setReg_draws, consumeDraw_of_cons h]
  · rw [State.setReg_drawCount, consumeDraw_of_cons h]
  · rw [State.setReg_draws, consumeDraw_of_nil h, h]
  · rw [State.setReg_drawCount, consumeDraw_of_nil h]
  · rw [setReg_regsExcept _ x _ r hr, consumeDraw_reg]

end Sys2Proof.Machine
end

section
/-! SUPPORT. Keypad and timers (45_input_timers.md R135 to R140): the rows that select them, and the port `keys` in the
terms of `keyDown` and `leastKey`. -/

namespace Sys2Proof.Laws

theorem decodeWord_skp {op : Word} (htop : topNibble op = 0xE#4) (hlow : fieldN op = 0xE#4) (p : PBnnn) :
    decodeWord p op = .skp (fieldX op) (fieldY op) := by
  simp [decodeWord, htop, decodeE, hlow]

theorem decodeWord_sknp {op : Word} (htop : topNibble op = 0xE#4) (hlow : fieldN op = 0x1#4) (p : PBnnn) :
    decodeWord p op = .sknp (fieldX op) (fieldY op) := by
  simp [decodeWord, htop, decodeE, hlow]

theorem decodeF_ldVxK {op : Word} (h : fieldNN op = 0x0A#8) : decodeF op = .ldVxK (fieldX op) := by
  simp [decodeF, h]

theorem decodeF_ldDtVx {op : Word} (h : fieldNN op = 0x15#8) : decodeF op = .ldDtVx (fieldX op) := by
  simp [decodeF, h]

theorem decodeF_ldStVx {op : Word} (h : fieldNN op = 0x18#8) : decodeF op = .ldStVx (fieldX op) := by
  simp [decodeF, h]

end Sys2Proof.Laws

namespace Sys2Proof.Machine

theorem keyDown_of_getElem? {s : State} {k : Nat} {b : Bool} (h : s.keys[k]? = some b) : s.keyDown k = b := by
  rw [State.keyDown, h, Option.getD_some]

theorem exec_skp_of_lt {x : Nibble} (mid : Nibble) {s : State} (h : (s.reg x).toNat ≤ 15) :
    exec (.skp x mid) s = .next (s.skipIf (s.keyDown (s.reg x).toNat)) := by
  simp only [exec, execSkp, State.keyOf, if_pos (show (s.reg x).toNat < keyCount from Nat.lt_succ_of_le h)]
  rfl

theorem exec_sknp_of_lt {x : Nibble} (mid : Nibble) {s : State} (h : (s.reg x).toNat ≤ 15) :
    exec (.sknp x mid) s = .next (s.skipIf (!s.keyDown (s.reg x).toNat)) := by
  simp only [exec, execSknp, State.keyOf, if_pos (show (s.reg x).toNat < keyCount from Nat.lt_succ_of_le h)]
  rfl

theorem exec_skp_of_gt {x : Nibble} (mid : Nibble) {s : State} (h : (s.reg x).toNat > 15) :
    exec (.skp x mid) s = .next ((s.setPc (s.pc - 2)).takeFault (.keyRange (s.reg x))) := by
  simp only [exec, execSkp, State.keyOf, if_neg (show ¬ (s.reg x).toNat < keyCount from Nat.not_lt.2 h)]
  rfl

theorem exec_sknp_of_gt {x : Nibble} (mid : Nibble) {s : State} (h : (s.reg x).toNat > 15) :
    exec (.sknp x mid) s = .next ((s.setPc (s.pc - 2)).takeFault (.keyRange (s.reg x))) := by
  simp only [exec, execSknp, State.keyOf, if_neg (show ¬ (s.reg x).toNat < keyCount from Nat.not_lt.2 h)]
  rfl

/-- Settles O34: below 16 the two skips have opposite conditions on one key; above, both take the same fault. -/
theorem skipOnKeyState : Obligations.SkipOnKeyState := by
  refine ⟨Laws.selects_topAndLowMask fun p _ htop hlow => Laws.decodeWord_skp htop hlow p,
    Laws.selects_topAndLowMask fun p _ htop hlow => Laws.decodeWord_sknp htop hlow p,
    fun x mid s => ⟨fun h => ⟨?_, ?_⟩, fun h => ⟨?_, ?_⟩⟩⟩
  · exact exec_of_skipIf (exec_skp_of_lt mid h) keyDown_of_getElem? keyDown_of_getElem?
  · exact exec_of_skipIf (exec_sknp_of_lt mid h) (fun hup => by rw [keyDown_of_getElem? hup]; rfl)
      fun hdown => by rw [keyDown_of_getElem? hdown]; rfl
  · exact ⟨_, exec_skp_of_gt mid h, annulledWith_takeFault s _⟩
  · exact ⟨_, exec_sknp_of_gt mid h, annulledWith_takeFault s _⟩

/-! ### The key wait (R137) -/

theorem leastKey_eq_some {s : State} {k : Nat} (hk : k < 16) (hdown : s.keys[k]? = some true)
    (hup : ∀ j, j < k → s.keys[j]? = some false) : s.leastKey = some k := by
  rw [State.leastKey, List.find?_range_eq_some]
  exact ⟨keyDown_of_getElem? hdown, List.mem_range.2 hk, fun j hj => by rw [keyDown_of_getElem? (hup j hj)]; rfl⟩

theorem leastKey_eq_none {s : State} (hup : ∀ k, k < 16 → s.keys[k]? = some false) : s.leastKey = none := by
  rw [State.leastKey, List.find?_eq_none]
  intro k hk
  rw [keyDown_of_getElem? (hup k (List.mem_range.1 hk))]
  exact Bool.false_ne_true

theorem exec_ldVxK_of_some (x : Nibble) {s : State} {k : Nat} (h : s.leastKey = some k) :
    exec (.ldVxK x) s = .next (s.setReg x (BitVec.ofNat 8 k)) := by
  simp only [exec, execLdVxK, h]

theorem exec_ldVxK_of_none (x : Nibble) {s : State} (h : s.leastKey = none) :
    exec (.ldVxK x) s = .next (s.setPc (s.pc - 2)) := by
  simp only [exec, execLdVxK, h]
  rfl

theorem setPc_frame (s : State) (v : Word) : Frame [.pc] s (s.setPc v) := by
  intro p hp
  cases p <;> simp_all [StatePart.same]

/-- Settles O35: the keys `F` and `0A` select `LD Vx, K`, which takes the first pressed key of the scan, if any. -/
theorem waitForKeyTakesTheLeastKey : Obligations.WaitForKeyTakesTheLeastKey := by
  refine ⟨Laws.selects_familyF (by decide) fun _ h => Laws.decodeF_ldVxK h,
    fun x s => ⟨fun k hk hdown hup => ?_, fun hup => ?_⟩⟩
  · obtain ⟨t, ht, hx, hregs, hframe⟩ := exec_of_setReg (exec_ldVxK_of_some x (leastKey_eq_some hk hdown hup))
    exact ⟨t, ht, by rw [hx, BitVec.toNat_ofNat]; omega, hregs, hframe⟩
  · exact ⟨_, exec_ldVxK_of_none x (leastKey_eq_none hup), rfl, setPc_frame s _⟩

theorem toNat_finish_st {t : State} (op : Word) (h : t.fault = false) : (t.finish op).st.toNat = t.st.toNat - 1 := by
  simp [finish_of_ok op h]

/-- A step of the key wait with no key pressed is the record and the tick alone: the rewind undoes the advance. -/
theorem step_of_keyWait {x : Nibble} {s : State} (hs : s.fault = false) (hpc : s.pc.toNat ≤ 0xFFE)
    (hi : s.fetchInstr = .ldVxK x) (hup : ∀ k, k < 16 → s.keys[k]? = some false) :
    step s = .next (s.finish s.fetchWord) := by
  have hwait := exec_ldVxK_of_none x (s := s.advance) (leastKey_eq_none hup)
  rw [step_of_exec hs ((canFetch_iff s).2 hpc) (hi ▸ hwait)]
  simp [State.setPc]

/-- The word fetched depends on memory, `pc` and the parameters alone. -/
theorem Frame.fetchInstr {xs : List StatePart} {s t : State} (h : Frame xs s t) (hmem : .memory ∉ xs) (hpc : .pc ∉ xs)
    (hconfig : .config ∉ xs) : t.fetchInstr = s.fetchInstr := by
  have hbyte : ∀ a, t.byteAt a = s.byteAt a := h .memory hmem
  have hat : t.pc = s.pc := h .pc hpc
  have hparams : t.config = s.config := h .config hconfig
  rw [State.fetchInstr, State.fetchWord, State.wordAt, hbyte, hbyte, hat, hparams]
  rfl

/-- Settles O36: by induction on the steps, each of which leaves the same wait with the timers one lower. -/
theorem keyWaitTicksAndStays : Obligations.KeyWaitTicksAndStays := by
  intro x n
  induction n with
  | zero => exact fun s _ _ _ _ => ⟨s, run_zero s, rfl, rfl, rfl, Frame.refl _ s⟩
  | succ n ih =>
    intro s hs hpc hi hup
    have hframe := finish_frame s s.fetchWord
    have hsame : (s.finish s.fetchWord).pc = s.pc := hframe .pc (by simp)
    have hkeys : (s.finish s.fetchWord).keys = s.keys := hframe .keypad (by simp)
    obtain ⟨t, hrun, htpc, hdt, hst, hrest⟩ := ih (s.finish s.fetchWord) ((hframe .latches (by simp)).1.trans hs)
      (hsame ▸ hpc) ((hframe.fetchInstr (by simp) (by simp) (by simp)).trans hi) (hkeys ▸ hup)
    refine ⟨t, by rw [run_succ n (step_of_keyWait hs hpc hi hup), hrun], htpc.trans hsame, ?_, ?_, fun p hp => ?_⟩
    · rw [hdt, toNat_finish_dt _ hs]
      omega
    · rw [hst, toNat_finish_st _ hs]
      omega
    · exact StatePart.same_trans (hframe p hp) (hrest p hp)

/-! ### Writing the timers (R139, R140) -/

theorem exec_ldDtVx (x : Nibble) (s : State) : exec (.ldDtVx x) s = .next (s.setDt (s.reg x)) := rfl

theorem exec_ldStVx (x : Nibble) (s : State) : exec (.ldStVx x) s = .next (s.setSt (s.reg x)) := rfl

/-- Settles O38: the keys `F` and `15` or `18` select the writes, and the tick follows the handler. -/
theorem writeTimersThenTick : Obligations.WriteTimersThenTick := by
  refine ⟨Laws.selects_familyF (by decide) fun _ h => Laws.decodeF_ldDtVx h,
    Laws.selects_familyF (by decide) fun _ h => Laws.decodeF_ldStVx h, fun x s => ⟨?_, ?_⟩,
    fun x s hs hpc => ⟨fun hi => ?_, fun hi => ?_⟩⟩
  · exact ⟨_, exec_ldDtVx x s, rfl, Handled.frame (i := .ldDtVx x) rfl⟩
  · exact ⟨_, exec_ldStVx x s, rfl, Handled.frame (i := .ldStVx x) rfl⟩
  · exact ⟨_, step_of_exec hs ((canFetch_iff s).2 hpc) (hi ▸ exec_ldDtVx x s.advance),
      toNat_finish_dt (t := s.advance.setDt (s.reg x)) _ hs⟩
  · exact ⟨_, step_of_exec hs ((canFetch_iff s).2 hpc) (hi ▸ exec_ldStVx x s.advance),
      toNat_finish_st (t := s.advance.setSt (s.reg x)) _ hs⟩

end Sys2Proof.Machine
end

section
/-! SUPPORT. Memory block transfer (46_memory_transfer.md R143 to R146): both stores are one write of several bytes at
`I`, which lands whole or takes a fault; the load is one read of several bytes. -/

namespace Sys2Proof.Laws

theorem decodeF_ldB {op : Word} (h : fieldNN op = 0x33#8) : decodeF op = .ldB (fieldX op) := by
  simp [decodeF, h]

theorem decodeF_storeRegs {op : Word} (h : fieldNN op = 0x55#8) : decodeF op = .storeRegs (fieldX op) := by
  simp [decodeF, h]

theorem decodeF_loadRegs {op : Word} (h : fieldNN op = 0x65#8) : decodeF op = .loadRegs (fieldX op) := by
  simp [decodeF, h]

end Sys2Proof.Laws

namespace Sys2Proof.Machine

/-- What a store of the bytes `vs` at `I` does: they land in place and nothing else changes, or, where the last of them
would lie above `0xFFF`, the lowest address out of range is reported. -/
theorem exec_of_memWriteAll {i : Instr} {s : State} {vs : List Byte}
    (hexec : exec i s = s.settle (s.memWriteAll (s.effAddr 0) vs)) (hwf : Memory.wf s.config s.mem = true)
    (hne : vs ≠ []) :
    (s.I.toNat + vs.length ≤ 0x1000 → ∃ t, exec i s = .next t ∧
      (∀ k v, vs[k]? = some v → t.byteAt (s.effAddr k) = v) ∧ MemExcept (s.effAddr 0) vs.length s t ∧
      Frame [.memory] s t) ∧
    (s.I.toNat + vs.length > 0x1000 → ∃ t, exec i s = .next t ∧
      AnnulledWith 4 (BitVec.ofNat 16 (max s.I.toNat 0x1000)) s t) := by
  obtain ⟨hok, herr⟩ := s.memWriteAll_spec vs (s.effAddr 0) hwf
  refine ⟨fun hfit => ?_, fun hbig => ?_⟩
  · obtain ⟨m, hm, -, hin, hout⟩ := hok hfit
    exact ⟨_, hexec.trans (congrArg s.settle hm), hin, hout, withMem_frame s m⟩
  · exact ⟨_, hexec.trans (congrArg s.settle (herr hbig hne)), annulledWith_takeFault s _⟩

theorem exec_ldB (x : Nibble) (s : State) :
    exec (.ldB x) s = s.settle (s.memWriteAll (s.effAddr 0) (bcdDigits (s.reg x))) := rfl

theorem exec_loadRegs (x : Nibble) (s : State) : exec (.loadRegs x) s =
    s.settle ((s.memReadAll (s.effAddr 0) (x.toNat + 1)).map (s.setRegsFrom 0)) := rfl

theorem exec_storeRegs (x : Nibble) (s : State) :
    exec (.storeRegs x) s = s.settle (s.memWriteAll (s.effAddr 0) (s.regsUpTo x)) := rfl

/-- Settles O39: the three digits are bytes, stored as any other bytes. -/
theorem bcdStoresThreeDigits : Obligations.BcdStoresThreeDigits := by
  refine ⟨Laws.selects_familyF (by decide) fun _ h => Laws.decodeF_ldB h, fun x s hwf => ?_⟩
  obtain ⟨hok, herr⟩ := exec_of_memWriteAll (exec_ldB x s) hwf (List.cons_ne_nil _ _)
  refine ⟨fun hI => ?_, fun hI => herr (show s.I.toNat + 3 > 0x1000 by omega)⟩
  obtain ⟨t, ht, hin, hout, hframe⟩ := hok (show s.I.toNat + 3 ≤ 0x1000 by omega)
  exact ⟨t, ht, congrArg BitVec.toNat (hin 0 _ rfl), congrArg BitVec.toNat (hin 1 _ rfl),
    congrArg BitVec.toNat (hin 2 _ rfl), hout, hframe⟩

theorem regsUpTo_getElem? (s : State) {x r : Nibble} (h : r.toNat ≤ x.toNat) :
    (s.regsUpTo x)[r.toNat]? = some (s.reg r) := by
  have hr : r.toNat < 16 := r.isLt
  rw [State.regsUpTo, List.getElem?_take_of_lt (Nat.lt_succ_of_le h)]
  simp [State.reg, hr]

/-- Settles O40: the bytes stored are the registers `V0` to `Vx`, in order. -/
theorem dumpStoresRegisters : Obligations.DumpStoresRegisters := by
  refine ⟨Laws.selects_familyF (by decide) fun _ h => Laws.decodeF_storeRegs h, fun x s hwf => ?_⟩
  have hlen := s.length_regsUpTo x
  obtain ⟨hok, herr⟩ := exec_of_memWriteAll (exec_storeRegs x s) hwf (List.ne_nil_of_length_pos (by omega))
  refine ⟨fun hI => ?_, fun hI => herr (by omega)⟩
  obtain ⟨t, ht, hin, hout, hframe⟩ := hok (by omega)
  exact ⟨t, ht, fun r hr => hin r.toNat _ (regsUpTo_getElem? s hr), hlen ▸ hout, hframe⟩

/-- What a load does: the registers up to `Vx` end as the bytes at `I` and up, or the fault is taken. -/
theorem exec_loadRegs_cases (x : Nibble) (s : State) :
    (s.I.toNat + x.toNat ≤ 0xFFF → ∃ t, exec (.loadRegs x) s = .next t ∧
      (∀ r : Nibble, r.toNat ≤ x.toNat → t.reg r = s.byteAt (s.effAddr r.toNat)) ∧
      (∀ r : Nibble, x.toNat < r.toNat → t.reg r = s.reg r) ∧ Frame [.registers] s t) ∧
    (s.I.toNat + x.toNat > 0xFFF → ∃ t, exec (.loadRegs x) s = .next t ∧
      AnnulledWith 4 (BitVec.ofNat 16 (max s.I.toNat 0x1000)) s t) := by
  have hx : x.toNat < 16 := x.isLt
  obtain ⟨hok, herr⟩ := s.memReadAll_spec (x.toNat + 1) (s.effAddr 0)
  have hsettle : ∀ r, s.memReadAll (s.effAddr 0) (x.toNat + 1) = r →
      exec (.loadRegs x) s = s.settle (r.map (s.setRegsFrom 0)) := fun r hr => hr ▸ exec_loadRegs x s
  refine ⟨fun hfit => ?_, fun hbig => ?_⟩
  · have hread := hok (show s.I.toNat + (x.toNat + 1) ≤ 0x1000 by omega)
    obtain ⟨rs, hrs, hreg⟩ := s.setRegsFrom_spec ((List.range' (s.effAddr 0) (x.toNat + 1)).map s.byteAt) 0 (by simpa)
    have habove : ∀ r : Nibble, x.toNat < r.toNat → (s.setRegsFrom 0 _).reg r = s.reg r := fun r hr => by
      rw [hreg r, if_neg (by simp; omega)]
    refine ⟨_, hsettle _ hread, fun r hr => ?_, habove, Handled.frame (i := .loadRegs x) ⟨rs, hrs, habove⟩⟩
    rw [hreg r, if_pos (by simp; omega)]
    simp [Nat.lt_succ_of_le hr, State.effAddr]
  · have hfault := hsettle _ (herr (show 0x1000 < s.I.toNat + (x.toNat + 1) by omega) (Nat.succ_pos _))
    exact ⟨_, hfault, annulledWith_takeFault s _⟩

/-- Settles O41: the bytes read go to `V0` to `Vx`, in order, and no other part of the state is written. -/
theorem loadReadsRegisters : Obligations.LoadReadsRegisters :=
  ⟨Laws.selects_familyF (by decide) fun _ h => Laws.decodeF_loadRegs h, exec_loadRegs_cases⟩

/-- Settles O42: the load reads back the bytes the dump stored, which memory still holds. -/
theorem dumpThenLoadRestoresRegisters : Obligations.DumpThenLoadRestoresRegisters := by
  intro x s t u hwf hI hdump huI hmem
  obtain ⟨t', ht', hstored, -, -⟩ := ((dumpStoresRegisters.2 x s) hwf).1 hI
  obtain rfl := Host.Outcome.next.inj (hdump.symm.trans ht')
  obtain ⟨v, hv, hloaded, -, -⟩ := (loadReadsRegisters.2 x u).1 (huI ▸ hI)
  refine ⟨v, hv, fun r hr => ?_⟩
  calc v.reg r
    _ = u.byteAt (u.effAddr r.toNat) := hloaded r hr
    _ = t.byteAt (s.effAddr r.toNat) := by rw [State.effAddr, huI, hmem]; rfl
    _ = s.reg r := hstored r hr

end Sys2Proof.Machine
end

section
/-! SUPPORT. `DRW` (44_display.md R131) in both outcomes: the drawing of the pixels the sprite covers, or the fault of
the first row that does not fit. -/

namespace Sys2Proof.Laws

theorem decodeWord_drw {op : Word} (h : topNibble op = 0xD#4) (p : PBnnn) :
    decodeWord p op = .drw (fieldX op) (fieldY op) (fieldN op) := by
  simp [decodeWord, h]

end Sys2Proof.Laws

namespace Sys2Proof.Machine

theorem setFlag_regsExcept (s : State) (b : Bool) : RegsExcept [15] s (s.setFlag b) :=
  setReg_regsExcept s flagReg (flagByte b)

/-- A draw whose row `row` is the first that does not fit. -/
theorem exec_drw_of_first_bad {x y n : Nibble} {s : State} {row : Nat} (hrow : row < n.toNat)
    (hfit : ∀ r, r < row → SpriteRowFits s x y r) (hbad : ¬ SpriteRowFits s x y row) :
    exec (.drw x y n) s = .next ((s.setPc (s.pc - 2)).takeFault
      (if s.effAddr row ≤ topAddress then .fbRange s.site else .memRange (s.effAddr row))) := by
  have hrows := drawRows_first_bad s (s.spriteCol x) (s.spriteRow y) row (List.range row)
    (List.range' (row + 1) (n.toNat - row - 1)) (s.fb, false)
    (fun r hr => (spriteRowFits_iff s x y r).1 (hfit r (List.mem_range.1 hr)))
    (mt (spriteRowFits_iff s x y row).2 hbad)
  rw [← range_split hrow] at hrows
  simp only [exec, execDrw, hrows]
  rfl

/-- Settles O32: where every row fits the draw is a `DrawOk` of the covered pixels with the flag clear before it; else
the first row that does not fit is reported, by its address or by that of the instruction. -/
theorem drawInvertsTheSpritePixels : Obligations.DrawInvertsTheSpritePixels := by
  refine ⟨Laws.selects_topMask fun p _ h => Laws.decodeWord_drw h p,
    fun x y n s => ⟨fun hfit => ?_, fun row hrow hfit hbad => ⟨fun hout => ?_, fun hin => ?_⟩⟩⟩
  · obtain ⟨d, hd, hok⟩ := exec_drw_of_fits hfit
    have hhit : d.2 = true ↔ ∃ px py, SpriteCovers s x y n px py ∧ s.pixel px py = true :=
      hok.hit.trans (or_iff_right Bool.false_ne_true)
    refine ⟨_, hd, fun px py _ _ => ⟨hok.inverted px py, hok.kept px py⟩, fun hset => ?_, fun hclear => ?_,
      setFlag_regsExcept (s.setFb d.1) d.2, Handled.frame (i := .drw x y n) ⟨d.1, d.2, rfl⟩⟩
    · rw [setFlag_reg_flag, hhit.2 hset]; rfl
    · rw [setFlag_reg_flag, Bool.eq_false_iff.2 (mt hhit.1 hclear)]; rfl
  · have hfault := exec_drw_of_first_bad hrow hfit hbad
    rw [if_neg (show ¬ s.effAddr row ≤ topAddress from Nat.not_le.2 hout)] at hfault
    exact ⟨_, hfault, annulledWith_takeFault s _⟩
  · have hfault := exec_drw_of_first_bad hrow hfit hbad
    rw [if_pos (show s.effAddr row ≤ topAddress from hin)] at hfault
    exact ⟨_, hfault, annulledWith_takeFault s _⟩

end Sys2Proof.Machine
end

section
/-! SUPPORT. The decoder and the opcode table (30_encoding.md R75): a row that selects a word is the row of the
instruction the word decodes to, by the row's own law of selection; and every instruction but `NOP` has a row, which
selects its word. -/

namespace Sys2Proof.Laws

open Sys2Proof.Machine

/-- A law of selection, read as a statement about the row `k` of the table. -/
theorem tableIndex_of_law {mask pat : Word} {f : Word → Instr} {k : Nat} (h : Selects mask pat f)
    (hf : ∀ op, (f op).tableIndex = k) (p : PBnnn) (op : Word) (hsel : OpcodeRow.selects ⟨k, pat, mask⟩ op = true) :
    (decodeWord p op).tableIndex = k := by
  rw [h p op (beq_iff_eq.1 hsel), hf]

section
variable (p : PBnnn) (op : Word)

theorem tableIndex_of_rowsLow :
    ∀ r ∈ opcodeRowsLow, r.selects op = true → (decodeWord p op).tableIndex = r.index := by
  obtain ⟨hcls, -⟩ := clearScreenClearsEveryPixel
  obtain ⟨hret, -⟩ := returnPopsIntoPc
  obtain ⟨hjp, -⟩ := jumpSetsPc
  obtain ⟨hcall, -⟩ := callPushesThenJumps
  obtain ⟨hseImm, hsneImm, -⟩ := skipOnByteComparison
  obtain ⟨hseReg, -⟩ := skipOnRegisterComparison
  obtain ⟨hldImm, -⟩ := loadImmediateSetsRegister
  obtain ⟨haddImm, -⟩ := addImmediateWrapsWithoutFlag
  simp only [opcodeRowsLow, List.forall_mem_cons]
  exact ⟨tableIndex_of_law hcls (fun _ => rfl) p op, tableIndex_of_law hret (fun _ => rfl) p op,
    tableIndex_of_law hjp (fun _ => rfl) p op, tableIndex_of_law hcall (fun _ => rfl) p op,
    tableIndex_of_law hseImm (fun _ => rfl) p op, tableIndex_of_law hsneImm (fun _ => rfl) p op,
    tableIndex_of_law hseReg (fun _ => rfl) p op, tableIndex_of_law hldImm (fun _ => rfl) p op,
    tableIndex_of_law haddImm (fun _ => rfl) p op, by simp⟩

theorem tableIndex_of_rows8 :
    ∀ r ∈ opcodeRows8, r.selects op = true → (decodeWord p op).tableIndex = r.index := by
  obtain ⟨hldReg, -⟩ := copySetsRegister
  obtain ⟨hor, hand, hxor, -⟩ := logicActsBitwiseWithoutFlag
  obtain ⟨hadd, -⟩ := addSetsCarryAndSum
  obtain ⟨hsub, hsubn, -⟩ := subtractSetsNoBorrowAndDifference
  obtain ⟨hshr, hshl, -⟩ := shiftsMoveOneBitIntoFlag
  simp only [opcodeRows8, List.forall_mem_cons]
  exact ⟨tableIndex_of_law hldReg (fun _ => rfl) p op, tableIndex_of_law hor (fun _ => rfl) p op,
    tableIndex_of_law hand (fun _ => rfl) p op, tableIndex_of_law hxor (fun _ => rfl) p op,
    tableIndex_of_law hadd (fun _ => rfl) p op, tableIndex_of_law hsub (fun _ => rfl) p op,
    tableIndex_of_law hshr (fun _ => rfl) p op, tableIndex_of_law hsubn (fun _ => rfl) p op,
    tableIndex_of_law hshl (fun _ => rfl) p op, by simp⟩

theorem tableIndex_of_rowsHigh :
    ∀ r ∈ opcodeRowsHigh p, r.selects op = true → (decodeWord p op).tableIndex = r.index := by
  obtain ⟨-, hsneReg, -⟩ := skipOnRegisterComparison
  obtain ⟨hldI, -⟩ := loadIndexImmediate
  obtain ⟨hjpV0, -, -⟩ := jumpWithOffsetByParameter
  obtain ⟨hrnd, -⟩ := randomByteIsMasked
  obtain ⟨hdrw, -⟩ := drawInvertsTheSpritePixels
  obtain ⟨hskp, hsknp, -⟩ := skipOnKeyState
  simp only [opcodeRowsHigh, List.forall_mem_append, List.forall_mem_cons]
  refine ⟨⟨⟨tableIndex_of_law hsneReg (fun _ => rfl) p op, tableIndex_of_law hldI (fun _ => rfl) p op, by simp⟩, ?_⟩,
    tableIndex_of_law hrnd (fun _ => rfl) p op, tableIndex_of_law hdrw (fun _ => rfl) p op,
    tableIndex_of_law hskp (fun _ => rfl) p op, tableIndex_of_law hsknp (fun _ => rfl) p op, by simp⟩
  cases p with
  | jpV0 => exact List.forall_mem_singleton.2 fun hsel => by rw [hjpV0 op (beq_iff_eq.1 hsel)]; rfl
  | nop => simp

theorem tableIndex_of_rowsF :
    ∀ r ∈ opcodeRowsF, r.selects op = true → (decodeWord p op).tableIndex = r.index := by
  obtain ⟨hldVxDt, -⟩ := readDelayTimerBeforeTick
  obtain ⟨hldVxK, -⟩ := waitForKeyTakesTheLeastKey
  obtain ⟨hldDtVx, hldStVx, -⟩ := writeTimersThenTick
  obtain ⟨haddI, -⟩ := addToIndexWrapsAtSixteenBits
  obtain ⟨hldF, -⟩ := glyphAddressIsNotMasked
  obtain ⟨hldB, -⟩ := bcdStoresThreeDigits
  obtain ⟨hstore, -⟩ := dumpStoresRegisters
  obtain ⟨hload, -⟩ := loadReadsRegisters
  simp only [opcodeRowsF, List.forall_mem_cons]
  exact ⟨tableIndex_of_law hldVxDt (fun _ => rfl) p op, tableIndex_of_law hldVxK (fun _ => rfl) p op,
    tableIndex_of_law hldDtVx (fun _ => rfl) p op, tableIndex_of_law hldStVx (fun _ => rfl) p op,
    tableIndex_of_law haddI (fun _ => rfl) p op, tableIndex_of_law hldF (fun _ => rfl) p op,
    tableIndex_of_law hldB (fun _ => rfl) p op, tableIndex_of_law hstore (fun _ => rfl) p op,
    tableIndex_of_law hload (fun _ => rfl) p op, by simp⟩

/-- A row other than the default that selects a word is the row of the instruction the word decodes to. -/
theorem tableIndex_of_selects :
    ∀ r ∈ opcodeRows p, r.selects op = true → (decodeWord p op).tableIndex = r.index := by
  simp only [opcodeRows, List.forall_mem_append]
  exact ⟨⟨⟨tableIndex_of_rowsLow p op, tableIndex_of_rows8 p op⟩, tableIndex_of_rowsHigh p op⟩,
    tableIndex_of_rowsF p op⟩

end

/-! ### The row of an instruction selects its word -/

theorem encodeXYN_and (k x y n k' x' y' n' : Nibble) : encodeXYN k x y n &&& encodeXYN k' x' y' n' =
    encodeXYN (k &&& k') (x &&& x') (y &&& y') (n &&& n') := by
  simp only [encodeXYN, ← BitVec.and_append]

theorem encodeXNN_and (k x k' x' : Nibble) (nn nn' : Byte) :
    encodeXNN k x nn &&& encodeXNN k' x' nn' = encodeXNN (k &&& k') (x &&& x') (nn &&& nn') := by
  simp only [encodeXNN, ← BitVec.and_append]

theorem selects_of_top {i : Nat} {pat op : Word} (h : encodeXYN (topNibble op) 0#4 0#4 0#4 = pat) :
    OpcodeRow.selects ⟨i, pat, 0xF000⟩ op = true := by
  refine beq_iff_eq.2 (Eq.trans ?_ h)
  calc op &&& 0xF000
    _ = encodeXYN (topNibble op) (fieldX op) (fieldY op) (fieldN op) &&& encodeXYN (.allOnes 4) 0#4 0#4 0#4 := by
      rw [encodeXYN_fields]; rfl
    _ = encodeXYN (topNibble op) 0#4 0#4 0#4 := by simp only [encodeXYN_and, BitVec.and_allOnes, BitVec.and_zero]

theorem selects_of_topAndLow {i : Nat} {pat op : Word} (h : encodeXYN (topNibble op) 0#4 0#4 (fieldN op) = pat) :
    OpcodeRow.selects ⟨i, pat, 0xF00F⟩ op = true := by
  refine beq_iff_eq.2 (Eq.trans ?_ h)
  calc op &&& 0xF00F
    _ = encodeXYN (topNibble op) (fieldX op) (fieldY op) (fieldN op) &&&
        encodeXYN (.allOnes 4) 0#4 0#4 (.allOnes 4) := by
      rw [encodeXYN_fields]; rfl
    _ = encodeXYN (topNibble op) 0#4 0#4 (fieldN op) := by
      simp only [encodeXYN_and, BitVec.and_allOnes, BitVec.and_zero]

theorem selects_of_topAndByte {i : Nat} {pat op : Word} (h : encodeXNN (topNibble op) 0#4 (fieldNN op) = pat) :
    OpcodeRow.selects ⟨i, pat, 0xF0FF⟩ op = true := by
  refine beq_iff_eq.2 (Eq.trans ?_ h)
  calc op &&& 0xF0FF
    _ = encodeXNN (topNibble op) (fieldX op) (fieldNN op) &&& encodeXNN (.allOnes 4) 0#4 (.allOnes 8) := by
      rw [encodeXNN_fields]; rfl
    _ = encodeXNN (topNibble op) 0#4 (fieldNN op) := by simp only [encodeXNN_and, BitVec.and_allOnes, BitVec.and_zero]

/-- The row an instruction has in the table selects its word: the word has the keys of the row. -/
theorem selects_encode (i : Instr) {r : OpcodeRow} (hr : (opcodeRows .jpV0)[i.tableIndex]? = some r) :
    r.selects (encode i) = true := by
  cases i
  case nop => cases hr
  case jp | call | ldI | jpV0 =>
    cases hr
    exact selects_of_top (by simp only [encode, topNibble_encodeNNN]; rfl)
  case seImm | sneImm | ldImm | addImm | rnd =>
    cases hr
    exact selects_of_top (by simp only [encode, topNibble_encodeXNN]; rfl)
  case seReg | sneReg | drw =>
    cases hr
    exact selects_of_top (by simp only [encode, topNibble_encodeXYN]; rfl)
  case cls | ret =>
    cases hr
    exact selects_of_topAndLow (by simp only [encode, topNibble_encodeZ, fieldN_encodeZ]; rfl)
  case ldReg | orReg | andReg | xorReg | addReg | sub | shr | subn | shl | skp | sknp =>
    cases hr
    exact selects_of_topAndLow (by simp only [encode, topNibble_encodeXYN, fieldN_encodeXYN]; rfl)
  case ldVxDt | ldVxK | ldDtVx | ldStVx | addI | ldF | ldB | storeRegs | loadRegs =>
    cases hr
    exact selects_of_topAndByte (by simp only [encode, topNibble_encodeXNN, fieldNN_encodeXNN]; rfl)

/-- Every row but that of `JP V0` is in the table under both values of the parameter. -/
theorem mem_opcodeRows_of_getElem? {k : Nat} {r : OpcodeRow} (hr : (opcodeRows .jpV0)[k]? = some r) (p : PBnnn)
    (hk : p = .nop → k ≠ 20) : r ∈ opcodeRows p := by
  cases p with
  | jpV0 => exact List.mem_of_getElem? hr
  | nop =>
    have herase : opcodeRows .nop = (opcodeRows .jpV0).eraseIdx 20 := by decide
    rw [herase, List.mem_eraseIdx_iff_getElem?]
    exact ⟨k, hk rfl, hr⟩

/-- A word that does not decode to `NOP` has a row that selects it. -/
theorem exists_row_of_ne_nop (p : PBnnn) (op : Word) (hnop : ∀ w, decodeWord p op ≠ .nop w) :
    ∃ r ∈ opcodeRows p, r.selects op = true := by
  have hwf := decodeWord_wf p op
  have hword := encode_decodeWord p op
  generalize decodeWord p op = i at *
  have hindex : i.tableIndex < (opcodeRows .jpV0).length := by
    cases i
    case nop w => exact absurd rfl (hnop w)
    all_goals exact Nat.lt_of_lt_of_le (by simp only [Instr.tableIndex]; decide) (show 34 ≤ _ by decide)
  have hrow := List.getElem?_eq_getElem hindex
  refine ⟨_, mem_opcodeRows_of_getElem? hrow p fun hp h20 => ?_, hword ▸ selects_encode i hrow⟩
  subst hp
  cases i <;> simp_all [Instr.tableIndex, Instr.wf]

/-- No two rows have one place. -/
theorem eq_of_index_eq (p : PBnnn) : ∀ r₁ ∈ opcodeRows p, ∀ r₂ ∈ opcodeRows p, r₁.index = r₂.index → r₁ = r₂ := by
  cases p <;> decide

/-- Settles O3: the first row that matches is the row of the decoded instruction, and where none matches the word
decodes to `NOP`; two rows that select one word are both the row of its instruction. -/
theorem decoderAgreesWithOpcodeTable : Obligations.DecoderAgreesWithOpcodeTable := by
  intro p op
  have hsel := tableIndex_of_selects p op
  refine ⟨?_, fun r₁ h₁ r₂ h₂ hs₁ hs₂ => eq_of_index_eq p r₁ h₁ r₂ h₂ ((hsel r₁ h₁ hs₁).symm.trans (hsel r₂ h₂ hs₂))⟩
  cases hfind : (opcodeRows p).find? (·.selects op) with
  | some r =>
    rw [rowOf, hfind]
    exact hsel r (List.mem_of_find?_eq_some hfind) (List.find?_some (p := fun r : OpcodeRow => r.selects op) hfind)
  | none =>
    rw [List.find?_eq_none] at hfind
    obtain ⟨w, hw⟩ : ∃ w, decodeWord p op = .nop w := by
      by_contra hne
      obtain ⟨r, hr, hrsel⟩ := exists_row_of_ne_nop p op (not_exists.1 hne)
      exact hfind r hr hrsel
    rw [rowOf, List.find?_eq_none.2 hfind, hw]
    rfl

end Sys2Proof.Laws
end
